-- ==== Sys2Proof/Word.lean ====
section
/-! DEFINITION. The words of the machine and their plainest arithmetic (spec/00_scope.md §4, spec/30_encoding.md R71). -/

namespace Sys2Proof

/-- "A byte is 8 bits" (00_scope.md §4): a general register, a timer, a memory byte, the immediate `kk`. -/
abbrev Byte := BitVec 8

/-- 16 bits: an instruction word, `I`, `PC`, a stack slot, the keypad. -/
abbrev Word := BitVec 16

/-- A register index `x` or `y`, and the row count `n` (30_encoding.md R71). -/
abbrev Nibble := BitVec 4

/-- The 12-bit address field `nnn` (30_encoding.md R71). -/
abbrev Addr := BitVec 12

/-- The framebuffer: 32 rows of 64 pixels, bit `col` of row `row` is `FB[col,row]` (10_state.md R29). -/
abbrev Pixels := Vector (BitVec 64) 32

/-- The byte 1 or 0 that a flag is written as (10_state.md R21: "writes VF with 0 or 1"). -/
def flagByte (b : Bool) : Byte := if b then 1 else 0

end Sys2Proof
end

