-- ==== Sys2Proof/Config.lean ====
section
/-! DEFINITION. The named parameters of the machine with the defaults the spec decides (spec/00_scope.md R5), the events
that the other agents raise (spec/40_execution_cycle.md R96), and the free values the spec leaves open (spec/10_state.md
R33, spec/45_timers_keypad.md R175, spec/40_execution_cycle.md R97). -/

namespace Sys2Proof

/-- `P_SHIFT_SOURCE` (42_alu.md R134, D9): the register that 8xy6 and 8xyE shift. -/
inductive ShiftSource where
  | vx
  | vy
deriving DecidableEq, Repr

/-- `P_FONT_DIGIT` (43_index_memory.md R143, D5): which glyph Fx29 selects for `V[x] > 0xF`. -/
inductive FontDigit where
  | lowNibble
  | raw
deriving DecidableEq, Repr

/-- `P_FONT_WRITE` (20_memory.md R54 and R60, D7): whether a write below 0x050 takes effect. -/
inductive FontWrite where
  | writeThrough
  | ignore
deriving DecidableEq, Repr

/-- `P_LOADSTORE_I` (43_index_memory.md R147, D8): whether Fx55 and Fx65 change `I`. -/
inductive LoadStoreI where
  | unchanged
  | increment
deriving DecidableEq, Repr

/-- `P_KEY_INDEX` (45_timers_keypad.md R176, D11): which key `V[x] > 0xF` names. -/
inductive KeyIndex where
  | lowNibble
  | outOfRangeReleased
deriving DecidableEq, Repr

/-- `P_KEY_WAIT_MODE` (45_timers_keypad.md R175 and R177, D12): what completes Fx0A. -/
inductive KeyWaitMode where
  | level
  | edge
deriving DecidableEq, Repr

/-- `P_ROM_OVERSIZE` (70_reset_and_hazards.md R225, D20): what the loader does with a ROM longer than 3584 bytes. -/
inductive RomOversize where
  | reject
  | truncate
deriving DecidableEq, Repr

/-- The glyphs 0 to 3 of the default font (20_memory.md R57). -/
def glyphs0to3 : List Byte :=
  [0xF0, 0x90, 0x90, 0x90, 0xF0] ++ [0x20, 0x60, 0x20, 0x20, 0x70] ++
  [0xF0, 0x10, 0xF0, 0x80, 0xF0] ++ [0xF0, 0x10, 0xF0, 0x10, 0xF0]

/-- The glyphs 4 to 7 of the default font (20_memory.md R57). -/
def glyphs4to7 : List Byte :=
  [0x90, 0x90, 0xF0, 0x10, 0x10] ++ [0xF0, 0x80, 0xF0, 0x10, 0xF0] ++
  [0xF0, 0x80, 0xF0, 0x90, 0xF0] ++ [0xF0, 0x10, 0x20, 0x40, 0x40]

/-- The glyphs 8 to B of the default font (20_memory.md R57). -/
def glyphs8toB : List Byte :=
  [0xF0, 0x90, 0xF0, 0x90, 0xF0] ++ [0xF0, 0x90, 0xF0, 0x10, 0xF0] ++
  [0xF0, 0x90, 0xF0, 0x90, 0x90] ++ [0xE0, 0x90, 0xE0, 0x90, 0xE0]

/-- The glyphs C to F of the default font (20_memory.md R57). -/
def glyphsCtoF : List Byte :=
  [0xF0, 0x80, 0x80, 0x80, 0xF0] ++ [0xE0, 0x90, 0x90, 0x90, 0xE0] ++
  [0xF0, 0x80, 0xF0, 0x80, 0xF0] ++ [0xF0, 0x80, 0xF0, 0x80, 0x80]

/-- The default `P_FONT_DATA` (20_memory.md R57, D6). PRESUMED by the spec itself: the bytes are from general knowledge,
not in the source (log entry 5; unsafe for claims about glyph pixels). -/
def fontDefault : Vector Byte 80 :=
  ⟨(glyphs0to3 ++ glyphs4to7 ++ glyphs8toB ++ glyphsCtoF).toArray, by decide⟩

/-- The named parameters of 00_scope.md R5, "a model takes as arguments". `P_STEPS_PER_TICK` is OPEN and has no field: the
order of steps and ticks is `State.events` (log entry 2). -/
structure Params where
  /-- `P_SHIFT_SOURCE` -/
  shiftSource : ShiftSource
  /-- `P_FONT_DATA`, 80 bytes -/
  fontData : Vector Byte 80
  /-- `P_FONT_DIGIT` -/
  fontDigit : FontDigit
  /-- `P_FONT_WRITE` -/
  fontWrite : FontWrite
  /-- `P_LOADSTORE_I` -/
  loadStoreI : LoadStoreI
  /-- `P_KEY_INDEX` -/
  keyIndex : KeyIndex
  /-- `P_KEY_WAIT_MODE` -/
  keyWaitMode : KeyWaitMode
  /-- `P_ROM_OVERSIZE` -/
  romOversize : RomOversize
deriving DecidableEq, Repr

/-- The defaults of 00_scope.md R5. -/
def Params.default : Params where
  shiftSource := .vx
  fontData := fontDefault
  fontDigit := .lowNibble
  fontWrite := .writeThrough
  loadStoreI := .unchanged
  keyIndex := .lowNibble
  keyWaitMode := .level
  romOversize := .reject

/-- An event of the machine, each atomic (40_execution_cycle.md R96). `reset` and `load` come before the first step only
(70_reset_and_hazards.md R220, R224): they build the launch state and are no events of a running machine. -/
inductive Machine.Event where
  /-- one fetch-decode-execute, requested by the Host Loop (R90) -/
  | step
  /-- one 60 Hz timer event (45_timers_keypad.md R181) -/
  | tick
  /-- the Input collaborator's write of the whole KEYS register (10_state.md R36, D19) -/
  | keysIn (keys : Word)
deriving DecidableEq, Repr, Inhabited

namespace Config

/-- FREE VALUE: the byte on `rnd_in` at the `k`-th free draw (10_state.md R33, R36; 42_alu.md R133, D14: "any value 0..255;
no law relates draws"). It has no body: nothing can be proved of it (log entry 3). -/
opaque rndIn : Nat → Byte

/-- FREE VALUE: which of several pressed keys Fx0A stores at the `k`-th free draw, as a number that is reduced to an
index into the pressed keys (45_timers_keypad.md R175, D12: "a draw among the pressed keys"; log entry 4). -/
opaque keyChoice : Nat → Nat

/-- FREE VALUE: the `k`-th event that no list of the state names. "Step, tick and key-write events occur in any
interleaving" (40_execution_cycle.md R96), and no rate relates them (R97, `P_STEPS_PER_TICK` is OPEN, D18): it has no body,
so a claim holds for every infinite sequence of events (log entry 2). -/
opaque hostEvent : Nat → Machine.Event

end Config

end Sys2Proof
end

