-- ==== Sys2Proof/Syntax.lean ====
section
/-! DEFINITION. The instructions: one constructor per row of spec/opcode_table.json (spec/30_encoding.md R72). -/

namespace Sys2Proof

/-- One constructor per row of 30_encoding.md R72, in the table's order. The register operands are the indices `x` and
`y`, the immediates `kk`, `nnn` and `n` (R71); the fallback carries the whole word (46_fallback.md R190). -/
inductive Instr where
  /-- row 1, `00E0`: clear screen -/
  | cls
  /-- row 2, `00EE`: return from subroutine -/
  | ret
  /-- row 3, `1nnn`: jump absolute -/
  | jp (nnn : Addr)
  /-- row 4, `2nnn`: call subroutine -/
  | call (nnn : Addr)
  /-- row 5, `3xkk`: skip if Vx == kk -/
  | seImm (x : Nibble) (kk : Byte)
  /-- row 6, `4xkk`: skip if Vx != kk -/
  | sneImm (x : Nibble) (kk : Byte)
  /-- row 7, `5xyN`: skip if Vx == Vy; `n` is decoded and ignored (R76) -/
  | seReg (x y n : Nibble)
  /-- row 8, `6xkk`: set Vx = kk -/
  | ldImm (x : Nibble) (kk : Byte)
  /-- row 9, `7xkk`: set Vx += kk -/
  | addImm (x : Nibble) (kk : Byte)
  /-- row 10, `8xy0`: set Vx = Vy -/
  | ldReg (x y : Nibble)
  /-- row 11, `8xy1`: Vx |= Vy -/
  | orReg (x y : Nibble)
  /-- row 12, `8xy2`: Vx &= Vy -/
  | andReg (x y : Nibble)
  /-- row 13, `8xy3`: Vx ^= Vy -/
  | xorReg (x y : Nibble)
  /-- row 14, `8xy4`: Vx += Vy, VF = carry -/
  | addReg (x y : Nibble)
  /-- row 15, `8xy5`: Vx -= Vy, VF = not-borrow -/
  | subReg (x y : Nibble)
  /-- row 16, `8xy6`: Vx >>= 1, VF = old LSB -/
  | shr (x y : Nibble)
  /-- row 17, `8xy7`: Vx = Vy - Vx, VF = not-borrow -/
  | subn (x y : Nibble)
  /-- row 18, `8xyE`: Vx <<= 1, VF = old MSB -/
  | shl (x y : Nibble)
  /-- row 19, `9xyN`: skip if Vx != Vy; `n` is decoded and ignored (R76) -/
  | sneReg (x y n : Nibble)
  /-- row 20, `Annn`: set I = nnn -/
  | ldI (nnn : Addr)
  /-- row 21, `Bnnn`: jump to nnn + V0 -/
  | jpV0 (nnn : Addr)
  /-- row 22, `Cxkk`: Vx = random & kk -/
  | rnd (x : Nibble) (kk : Byte)
  /-- row 23, `Dxyn`: draw sprite -/
  | drw (x y n : Nibble)
  /-- row 24, `Ex9E`: skip if key Vx pressed -/
  | skp (x : Nibble)
  /-- row 25, `ExA1`: skip if key Vx not pressed -/
  | sknp (x : Nibble)
  /-- row 26, `Fx07`: Vx = delay timer -/
  | ldVxDt (x : Nibble)
  /-- row 27, `Fx0A`: block until key press, store in Vx -/
  | ldVxK (x : Nibble)
  /-- row 28, `Fx15`: delay timer = Vx -/
  | ldDtVx (x : Nibble)
  /-- row 29, `Fx18`: sound timer = Vx -/
  | ldStVx (x : Nibble)
  /-- row 30, `Fx1E`: I += Vx -/
  | addI (x : Nibble)
  /-- row 31, `Fx29`: I = font glyph address for digit Vx -/
  | ldF (x : Nibble)
  /-- row 32, `Fx33`: store BCD digits of Vx at I, I+1, I+2 -/
  | ldB (x : Nibble)
  /-- row 33, `Fx55`: store V0..Vx to memory starting at I -/
  | storeRegs (x : Nibble)
  /-- row 34, `Fx65`: load V0..Vx from memory starting at I -/
  | loadRegs (x : Nibble)
  /-- row 35: the unrecognized word `w` -/
  | fallback (w : Word)
deriving DecidableEq, Repr

end Sys2Proof
end

