-- ==== Sys2Proof/Machine/State.lean ====
section
/-! DEFINITION. The state of the machine as plain data (spec/10_state.md R20 to R38, spec/20_memory.md R50 to R60), the
reasons a step can stop, and the state after reset. -/

namespace Sys2Proof.Machine

/-- Why the machine stops with a fault: never. "The CORE raises no synchronous exception, fault or trap"
(60_exceptions.md R200), so the type has no constructor (log entry 23). -/
inductive Fault where
deriving DecidableEq, Repr

/-- Why the model has no meaning for an instruction. -/
inductive Refusal where
  /-- Raised by an arm of `exec` for an instruction that has no meaning yet; safe. No arm raises it in this model. -/
  | notModelled (mnemonic : String)
deriving DecidableEq, Repr

/-- The status a step returns (40_execution_cycle.md R94). -/
inductive Status where
  | running
  | awaitingKey
deriving DecidableEq, Repr

/-- The output ports that hold what the last step left (10_state.md R37): `status`, `fb_changed`, and the pair
`diag_valid`, `diag_word` as `some w` for asserted with `w` and `none` for deasserted (46_fallback.md R191, log entry 22). -/
structure Outputs where
  status : Status
  fbChanged : Bool
  diag : Option Word
deriving DecidableEq, Repr

/-- The outputs of a step that returns `Running`, draws nothing and takes no fallback; also their reset values (R38). -/
def Outputs.quiet : Outputs := ⟨.running, false, none⟩

/-- MODEL's own: where the next events come from (log entry 2). Every finite or periodic order of events is some supply of
listed and recurring events; with neither left, every order is, because each further event is a free value. -/
structure EventSupply where
  /-- the events still listed, oldest first -/
  listed : List Event
  /-- what follows them, over and over -/
  recurring : List Event
  /-- how many free events have been taken, which they are once nothing is listed and nothing recurs -/
  taken : Nat
deriving DecidableEq, Repr

/-- Memory: the bytes that differ from their reset contents, addresses strictly rising (log entry 27). -/
abbrev Memory := List Host.Cell

/-- The machine. Every element of 10_state.md R38, and three fields of the model's own: `cfg`, `events`, `draws`. -/
structure State where
  /-- `V[0]` to `V[15]` (R20); VF is `V[15]` (R21) -/
  v : Vector Byte 16
  /-- the index register `I`, 16 bits (R22) -/
  i : Word
  /-- the program counter, 16 bits held in 0x000 to 0xFFF (R24) -/
  pc : Word
  /-- the stack pointer, 4 bits (R26) -/
  sp : Nibble
  /-- `STACK[0]` to `STACK[15]` (R27) -/
  stack : Vector Word 16
  /-- the delay timer (R28) -/
  dt : Byte
  /-- the sound timer (R28) -/
  st : Byte
  /-- the framebuffer, 64 columns by 32 rows (R29) -/
  fb : Pixels
  /-- the keypad state register, bit `k` is `KEYS[k]`, 1 = pressed (R30) -/
  keys : Word
  /-- `KW_ACTIVE`, used in EDGE mode only (R32) -/
  kwActive : Bool
  /-- `KW_SNAP`, used in EDGE mode only (R32) -/
  kwSnap : Word
  /-- the 4096 bytes (20_memory.md R50) -/
  mem : Memory
  /-- what the last step left on the output ports (R37) -/
  out : Outputs
  /-- MODEL's own: the parameters of 00_scope.md R5, which nothing writes (log entry 1) -/
  cfg : Params
  /-- MODEL's own: the steps, ticks and key writes still to come (log entry 2) -/
  events : EventSupply
  /-- MODEL's own: how many free draws have been taken (log entries 3 and 4) -/
  draws : Nat
deriving DecidableEq, Repr

/-- What the byte at `a` holds at reset, which is what an address that memory does not list reads as: the font at 0x000 to
0x04F, zero elsewhere (10_state.md R38, 70_reset_and_hazards.md R222, D21). -/
def resetByte (font : Vector Byte 80) (a : Nat) : Byte :=
  if h : a < 80 then font[a] else 0

/-- The reset state under the parameters `p` (10_state.md R38): all zero, font loaded, PC = 0x200. The
events that follow are free, in any interleaving (40_execution_cycle.md R96). -/
def State.resetWith (p : Params) : State where
  v := Vector.replicate 16 0
  i := 0
  pc := 0x200
  sp := 0
  stack := Vector.replicate 16 0
  dt := 0
  st := 0
  fb := Vector.replicate 32 0
  keys := 0
  kwActive := false
  kwSnap := 0
  mem := []
  out := Outputs.quiet
  cfg := p
  events := ⟨[], [], 0⟩
  draws := 0

/-- The machine right after reset, with the default parameters (10_state.md R38, 00_scope.md R5). -/
def State.reset : State := State.resetWith Params.default

/-- How a step or an event ends. -/
abbrev Result := Host.Outcome State Fault Refusal

end Sys2Proof.Machine
end

