-- ==== Sys2Proof/Machine/Ops.lean ====
section
/-! DEFINITION. The shared operations over the state: registers, PC and stack, memory, framebuffer, keypad, free draws, how
an instruction ends, the fetch, and the events of the timer engine and the Input. The spec gives no operation for taking an
exception: the CORE has no trap entry and no trap return (spec/60_exceptions.md R207). -/

namespace Sys2Proof.Machine

/-! ### Registers, program counter and stack -/

/-- `V[x]` (10_state.md R20). -/
def State.getV (s : State) (x : Nibble) : Byte := s.v.get x.toFin

/-- `V[x] <- b` (10_state.md R20). -/
def State.setV (s : State) (x : Nibble) (b : Byte) : State := { s with v := s.v.set x.toNat b x.isLt }

/-- `I <- a` (10_state.md R22). -/
def State.setI (s : State) (a : Word) : State := { s with i := a }

/-- Every write of PC "stores its value `& 0xFFF`" (10_state.md R24, D3). -/
def State.setPc (s : State) (target : Word) : State := { s with pc := target &&& 0xFFF }

/-- The skip of 40_execution_cycle.md R92: `PC <- (PC + 2) & 0xFFF` when the condition holds. -/
def State.skipIf (s : State) (c : Bool) : State := if c then s.setPc (s.pc + 2) else s

/-- `STACK[k]` (10_state.md R27). -/
def State.slot (s : State) (k : Nibble) : Word := s.stack.get k.toFin

/-- The push of 2nnn: "SP <- (SP + 1) mod 16", then `STACK[SP] <- a` (41_control_flow.md R102). -/
def State.push (s : State) (a : Word) : State :=
  { s with sp := s.sp + 1, stack := s.stack.set (s.sp + 1).toNat a (s.sp + 1).isLt }

/-- The pop of 00EE once its slot is read: "SP <- (SP - 1) mod 16"; the slot is not cleared (41_control_flow.md R100). -/
def State.pop (s : State) : State := { s with sp := s.sp - 1 }

/-! ### Memory and its address unit -/

/-- The byte address an access to `a` touches: `a & 0xFFF`, never an error (20_memory.md R51). -/
def maskAddr (a : Nat) : Nat := a % 4096

/-- The listed byte at `a`, if there is one. -/
def Memory.find : Memory → Nat → Option Byte
  | [], _ => none
  | (k, b) :: m, a => if k = a then some b else Memory.find m a

/-- The byte that memory holds at `a`: the listed one, else its reset contents. -/
def Memory.read (font : Vector Byte 80) (m : Memory) (a : Nat) : Byte :=
  (Memory.find m a).getD (resetByte font a)

/-- Lists `b` at `a`, keeping the addresses strictly rising. -/
def Memory.insert (a : Nat) (b : Byte) : Memory → Memory
  | [] => [(a, b)]
  | (k, c) :: m =>
    if a < k then (a, b) :: (k, c) :: m
    else if a = k then (a, b) :: m
    else (k, c) :: Memory.insert a b m

/-- Takes `a` off the list. -/
def Memory.erase (a : Nat) : Memory → Memory
  | [] => []
  | (k, c) :: m => if k = a then Memory.erase a m else (k, c) :: Memory.erase a m

/-- `MEM[a] <- b`, canonical: a byte equal to its reset contents is not listed. -/
def Memory.write (font : Vector Byte 80) (a : Nat) (b : Byte) (m : Memory) : Memory :=
  if b = resetByte font a then Memory.erase a m else Memory.insert a b m

/-- The canonical form from address `lo` on: addresses strictly rising and below 4096, no entry equal to its reset
contents. -/
def Memory.wfFrom (font : Vector Byte 80) : Nat → Memory → Bool
  | _, [] => true
  | lo, (k, b) :: m =>
    decide (lo ≤ k) && decide (k < 4096) && !(b == resetByte font k) && Memory.wfFrom font (k + 1) m

/-- The canonical form of memory: equal memories are equal lists. -/
def Memory.wf (font : Vector Byte 80) (m : Memory) : Bool := Memory.wfFrom font 0 m

/-- `MemRead(a, 1)` (20_memory.md R52). -/
def State.memRead (s : State) (a : Nat) : Byte := Memory.read s.cfg.fontData s.mem (maskAddr a)

/-- `MemRead(a, 2)`: big-endian, each byte address masked on its own (20_memory.md R53). -/
def State.memReadWord (s : State) (a : Nat) : Word := s.memRead a ++ s.memRead (a + 1)

/-- Whether `MemWrite` drops a write to `a`: `P_FONT_WRITE = IGNORE and (a & 0xFFF) <= 0x04F` (20_memory.md R54). -/
def State.writeDropped (s : State) (a : Nat) : Bool :=
  s.cfg.fontWrite == .ignore && decide (maskAddr a ≤ 0x04F)

/-- `MemWrite(a, 1, b)` (20_memory.md R54, R60, D7). -/
def State.memWrite (s : State) (a : Nat) (b : Byte) : State :=
  if s.writeDropped a then s else { s with mem := Memory.write s.cfg.fontData (maskAddr a) b s.mem }

/-- A transfer to memory, byte by byte to ascending addresses (20_memory.md R55, 43_index_memory.md R140). -/
def State.storeBytes (s : State) (a : Nat) : List Byte → State
  | [] => s
  | b :: bs => (s.memWrite a b).storeBytes (a + 1) bs

/-- `for k in 0..n-1: V[k] <- MemRead(a + k, 1)`, in that order (43_index_memory.md R146). -/
def State.loadBytes (s : State) (a : Nat) : Nat → State
  | 0 => s
  | n + 1 => (s.loadBytes a n).setV (BitVec.ofNat 4 n) ((s.loadBytes a n).memRead (a + n))

/-! ### Framebuffer write port (44_display.md R160) -/

/-- `FB[col,row]` of a framebuffer (10_state.md R29). -/
def pixelOf (fb : Pixels) (col : Fin 64) (row : Fin 32) : Bool := (fb.get row).getLsbD col.val

/-- `FB[col,row]` (10_state.md R29). -/
def State.pixel (s : State) (col : Fin 64) (row : Fin 32) : Bool := pixelOf s.fb col row

/-- Clear-all (44_display.md R161). -/
def State.clearScreen (s : State) : State := { s with fb := Vector.replicate 32 0 }

/-- `FB[col,row] <- FB[col,row] ^ 1` (44_display.md R162). -/
def flipPixel (fb : Pixels) (col : Fin 64) (row : Fin 32) : Pixels :=
  fb.set row.val (fb.get row ^^^ BitVec.twoPow 64 col.val) row.isLt

/-- What the blit carries from bit to bit: the framebuffer and `collision` (44_display.md R162). -/
structure Blit where
  fb : Pixels
  collision : Bool
deriving DecidableEq, Repr

/-- `(cx + column) mod 64` (44_display.md R162). -/
def screenCol (cx column : Nat) : Fin 64 := Fin.ofNat 64 (cx + column)

/-- `(cy + row) mod 32` (44_display.md R162). -/
def screenRow (cy row : Nat) : Fin 32 := Fin.ofNat 32 (cy + row)

/-- One bit of a sprite row: the body of `if b[7 - column] = 1` in 44_display.md R162, at screen coordinates that wrap. -/
def blitBit (cx cy row column : Nat) (a : Blit) : Blit :=
  ⟨flipPixel a.fb (screenCol cx column) (screenRow cy row),
   a.collision || pixelOf a.fb (screenCol cx column) (screenRow cy row)⟩

/-- `for column in 0..n-1` of 44_display.md R162; bit 7 of the sprite byte is column 0 (R163, D15). -/
def blitColumns (b : Byte) (cx cy row : Nat) (a : Blit) : Nat → Blit
  | 0 => a
  | n + 1 =>
    let a' := blitColumns b cx cy row a n
    if b.getLsbD (7 - n) then blitBit cx cy row n a' else a'

/-- `for row in 0..n-1` of 44_display.md R162: row `row` of the sprite is the byte at `(I + row) & 0xFFF`. -/
def State.blitRows (s : State) (cx cy : Nat) : Nat → Blit
  | 0 => ⟨s.fb, false⟩
  | n + 1 => blitColumns (s.memRead (s.i.toNat + n)) cx cy n (s.blitRows cx cy n) 8

/-! ### Keypad -/

/-- The keys of a 16-bit key state that are 1, in ascending order. -/
def keyList (ks : Word) : List Nibble :=
  ((List.range 16).filter fun k => ks.getLsbD k).map (BitVec.ofNat 4)

/-! ### Free draws (10_state.md R33, 45_timers_keypad.md R175) -/

/-- The byte of `draw_rnd()`: the free value of the next draw (42_alu.md R133, D14). -/
def State.rndByte (s : State) : Byte := Config.rndIn s.draws

/-- `choose(P)` for the pressed keys `k :: ks`: the free value of the next draw picks one of them; with one key pressed it
is that key (45_timers_keypad.md R175, D12). -/
def chooseKey (draw : Nat) (k : Nibble) : List Nibble → Nibble
  | [] => k
  | k' :: ks => (k :: k' :: ks).getD (Config.keyChoice draw % (ks.length + 2)) k

/-- One free draw has been taken. -/
def State.drawn (s : State) : State := { s with draws := s.draws + 1 }

/-! ### How an instruction ends (40_execution_cycle.md R94) -/

/-- `return Running`; `fb_changed` and `diag_valid` deasserted (44_display.md R160, 46_fallback.md R191). -/
def running (s : State) : Result := .next { s with out := Outputs.quiet }

/-- `return Running` with `fb_changed` asserted (44_display.md R160). -/
def runningDrawn (s : State) : Result := .next { s with out := ⟨.running, true, none⟩ }

/-- `return Running` with `emit Diag(w)` (46_fallback.md R190, R191). -/
def runningDiag (w : Word) (s : State) : Result := .next { s with out := ⟨.running, false, some w⟩ }

/-- `PC <- (PC - 2) mod 4096; return AwaitingKey` (45_timers_keypad.md R175, D13). -/
def awaitingKey (s : State) : Result :=
  .next { s.setPc (s.pc - 2) with out := ⟨.awaitingKey, false, none⟩ }

/-! ### The fetch (40_execution_cycle.md R90) -/

/-- `w <- MemRead(PC, 2)`. -/
def State.fetchWord (s : State) : Word := s.memReadWord s.pc.toNat

/-- `PC <- (A + 2) & 0xFFF`, the provisional PC of 40_execution_cycle.md R91. -/
def State.advance (s : State) : State := s.setPc (s.pc + 2)

/-! ### The other agents' events -/

/-- One timer's part of a tick: "each decremented once per 60Hz tick while nonzero, otherwise held at zero" (10_state.md
R28). -/
def countDown (t : Byte) : Byte := if t = 0 then 0 else t - 1

/-- `tick()` (45_timers_keypad.md R181): it writes nothing but DT and ST. -/
def State.tick (s : State) : State := { s with dt := countDown s.dt, st := countDown s.st }

/-- The Input's write of all of KEYS (10_state.md R36, D19). -/
def State.keysIn (s : State) (keys : Word) : State := { s with keys := keys }

/-- `audio_on`: the level `ST != 0` (45_timers_keypad.md R182). -/
def State.audioOn (s : State) : Bool := !(s.st == 0)

/-- The signal the Audio collaborator receives (45_timers_keypad.md R182). -/
inductive AudioSignal where
  | start
  | stop
deriving DecidableEq, Repr

/-- The signal of an event that takes `s` to `t`: start is a rising edge of `audio_on`, stop a falling edge (R182, D17). -/
def audioSignal (s t : State) : Option AudioSignal :=
  match s.audioOn, t.audioOn with
  | false, true => some .start
  | true, false => some .stop
  | false, false => none
  | true, true => none

/-- Bit `k` of the framebuffer read port `fb_out`: "Bit `row*64 + col` is `FB[col,row]`" (10_state.md R37, D16). -/
def State.fbOut (s : State) (k : Nat) : Bool := s.pixel (Fin.ofNat 64 k) (Fin.ofNat 32 (k / 64))

/-- The next event and the supply after it: the first listed event; with none listed, the recurring ones begin again; with
none recurring, a free one (40_execution_cycle.md R96, R97; log entry 2). -/
def EventSupply.next (q : EventSupply) : Event × EventSupply :=
  match q.listed, q.recurring with
  | e :: es, _ => (e, { q with listed := es })
  | [], e :: es => (e, { q with listed := es })
  | [], [] => (Config.hostEvent q.taken, { q with taken := q.taken + 1 })

/-- `s` with its next event taken off. -/
def State.eventTaken (s : State) : State := { s with events := s.events.next.2 }

end Sys2Proof.Machine
end

