-- ==== Sys2Proof/Machine/Boot.lean ====
section
/-! DEFINITION. The boot before the first step: the ROM loader and the launch state (spec/70_reset_and_hazards.md R223 to
R226). -/

namespace Sys2Proof.Machine

/-- `load(addr, byte)`: the ROM loader's memory write port, used only before the first step (10_state.md R36). -/
def State.load (s : State) (a : Nat) (b : Byte) : State :=
  { s with mem := Memory.write s.cfg.fontData (maskAddr a) b s.mem }

/-- The loader's copy: byte `j` of the file goes to address `a + j` (70_reset_and_hazards.md R224). -/
def State.loadRom (s : State) (a : Nat) : List Byte → State
  | [] => s
  | b :: bs => (s.load a b).loadRom (a + 1) bs

/-- "at most `4096 - 0x200` = 3584 bytes" (20_memory.md R58, 70_reset_and_hazards.md R224). -/
def romCapacity : Nat := 4096 - 0x200

/-- The bytes that are loaded, or none where the ROM is rejected (70_reset_and_hazards.md R225, D20). -/
def admitRom (mode : RomOversize) (rom : List Byte) : Option (List Byte) :=
  if rom.length ≤ romCapacity then some rom
  else match mode with
    | .reject => none
    | .truncate => some (rom.take romCapacity)

/-- The launch state: reset, then the ROM from 0x200 (70_reset_and_hazards.md R220, R223, R224). `none`: "no launch state
exists" (R226). -/
def launch (p : Params) (rom : List Byte) : Option State :=
  (admitRom p.romOversize rom).map fun bytes => (State.resetWith p).loadRom 0x200 bytes

end Sys2Proof.Machine
end

