-- ==== Sys2Proof/Machine/Operands.lean ====
section
/-! DEFINITION. The operand forms: immediates, the shift source, the font digit, the key index, the index address and the
register list (spec/30_encoding.md R75, spec/42_alu.md R134, spec/43_index_memory.md R140, R143, R147,
spec/45_timers_keypad.md R176). -/

namespace Sys2Proof.Machine

/-- `zext_16(nnn)` (30_encoding.md R75). -/
def addrWord (nnn : Addr) : Word := nnn.setWidth 16

/-- `V[x]` zero-extended to 16 bits, as Fx1E and Bnnn add it. -/
def State.getVWord (s : State) (x : Nibble) : Word := (s.getV x).setWidth 16

/-- The operand of 8xy6 and 8xyE: `(P_SHIFT_SOURCE = VX) ? V[x] : V[y]` (42_alu.md R130, R132, R134). -/
def State.shiftOperand (s : State) (x y : Nibble) : Byte :=
  match s.cfg.shiftSource with
  | .vx => s.getV x
  | .vy => s.getV y

/-- The glyph address of Fx29: `5 * (V[x] & 0xF)` or `5 * V[x]` (43_index_memory.md R143, D5). -/
def State.glyphAddr (s : State) (x : Nibble) : Word :=
  match s.cfg.fontDigit with
  | .lowNibble => 5 * (s.getVWord x &&& 0xF)
  | .raw => 5 * s.getVWord x

/-- `key(v)` of 45_timers_keypad.md R176. -/
def State.key (s : State) (v : Byte) : Bool :=
  match s.cfg.keyIndex with
  | .lowNibble => s.keys.getLsbD (v &&& 0xF).toNat
  | .outOfRangeReleased => decide (v.toNat ≤ 0xF) && s.keys.getLsbD v.toNat

/-- The base `I` of a transfer as a number: byte `k` of the transfer is at `(I + k) & 0xFFF`, and the memory operations
mask (43_index_memory.md R140). -/
def State.indexBase (s : State) : Nat := s.i.toNat

/-- `V[0]` to `V[x]` in ascending order (43_index_memory.md R145). -/
def State.regList (s : State) (x : Nibble) : List Byte :=
  (List.range (x.toNat + 1)).map fun k => s.getV (BitVec.ofNat 4 k)

/-- `v // 100`, `(v // 10) % 10`, `v % 10` (43_index_memory.md R144). -/
def bcdDigits (v : Byte) : List Byte :=
  [BitVec.ofNat 8 (v.toNat / 100), BitVec.ofNat 8 (v.toNat / 10 % 10), BitVec.ofNat 8 (v.toNat % 10)]

/-- The end of Fx55 and Fx65: `if P_LOADSTORE_I = INCREMENT: I <- (I + x + 1) mod 2^16` (43_index_memory.md R147, D8). -/
def State.indexUpdate (s : State) (x : Nibble) : State :=
  match s.cfg.loadStoreI with
  | .unchanged => s
  | .increment => s.setI (s.i + x.setWidth 16 + 1)

end Sys2Proof.Machine
end

