-- ==== Sys2Proof/Machine/Flags.lean ====
section
/-! DEFINITION. The flag computations of the 8-bit ALU and the order in which result and flag are written (spec/42_alu.md
R120, R121). -/

namespace Sys2Proof.Machine

/-- Carry of an addition: "VF = 1 iff the true sum is 256 or more" (42_alu.md R120, 90_conflicts.md C7). -/
def carryOf (a b : Byte) : Bool := decide (256 ≤ a.toNat + b.toNat)

/-- Not-borrow of `a - b`: 1 iff `a >= b` (42_alu.md R120). -/
def notBorrowOf (a b : Byte) : Bool := decide (b.toNat ≤ a.toNat)

/-- The bit a right shift loses (42_alu.md R130). -/
def lsbOf (a : Byte) : Bool := a.getLsbD 0

/-- The bit a left shift loses (42_alu.md R132). -/
def msbOf (a : Byte) : Bool := a.getLsbD 7

/-- `V[0xF] <- flag`, as 0 or 1 (10_state.md R21). -/
def State.setFlag (s : State) (flag : Bool) : State := s.setV 0xF (flagByte flag)

/-- "The result is written to `V[x]`. The flag is written to VF last." (42_alu.md R121, D10). -/
def State.setResultFlag (s : State) (x : Nibble) (result : Byte) (flag : Bool) : State :=
  (s.setV x result).setFlag flag

end Sys2Proof.Machine
end

