-- ==== Sys2Proof/Machine/Alu.lean ====
section
/-! DEFINITION. The meanings of the 8-bit ALU instructions (spec/42_alu.md R122 to R133). On entry PC is the provisional PC
(spec/40_execution_cycle.md R91), which they leave. -/

namespace Sys2Proof.Machine

/-- `6xkk` (42_alu.md R122): `V[x] <- kk`. -/
def execLdImm (x : Nibble) (kk : Byte) (s : State) : Result := running (s.setV x kk)

/-- `7xkk` (42_alu.md R123): `V[x] <- (V[x] + kk) mod 256`; VF is not a carry here. -/
def execAddImm (x : Nibble) (kk : Byte) (s : State) : Result := running (s.setV x (s.getV x + kk))

/-- `8xy0` (42_alu.md R124): `V[x] <- V[y]`. -/
def execLdReg (x y : Nibble) (s : State) : Result := running (s.setV x (s.getV y))

/-- `8xy1` (42_alu.md R125): `V[x] <- V[x] | V[y]`. -/
def execOrReg (x y : Nibble) (s : State) : Result := running (s.setV x (s.getV x ||| s.getV y))

/-- `8xy2` (42_alu.md R126): `V[x] <- V[x] & V[y]`. -/
def execAndReg (x y : Nibble) (s : State) : Result := running (s.setV x (s.getV x &&& s.getV y))

/-- `8xy3` (42_alu.md R127): `V[x] <- V[x] ^ V[y]`. -/
def execXorReg (x y : Nibble) (s : State) : Result := running (s.setV x (s.getV x ^^^ s.getV y))

/-- `8xy4` (42_alu.md R128): the sum modulo 256, then VF = carry. -/
def execAddReg (x y : Nibble) (s : State) : Result :=
  let a := s.getV x
  let b := s.getV y
  running (s.setResultFlag x (a + b) (carryOf a b))

/-- `8xy5` (42_alu.md R129): `V[x] - V[y]` modulo 256, then VF = not-borrow. -/
def execSubReg (x y : Nibble) (s : State) : Result :=
  let a := s.getV x
  let b := s.getV y
  running (s.setResultFlag x (a - b) (notBorrowOf a b))

/-- `8xy6` (42_alu.md R130): the shift operand shifted right, then VF = the bit shifted out. -/
def execShr (x y : Nibble) (s : State) : Result :=
  let a := s.shiftOperand x y
  running (s.setResultFlag x (a >>> 1) (lsbOf a))

/-- `8xy7` (42_alu.md R131): `V[y] - V[x]` modulo 256, then VF = not-borrow. -/
def execSubn (x y : Nibble) (s : State) : Result :=
  let a := s.getV x
  let b := s.getV y
  running (s.setResultFlag x (b - a) (notBorrowOf b a))

/-- `8xyE` (42_alu.md R132): the shift operand shifted left modulo 256, then VF = the bit shifted out. -/
def execShl (x y : Nibble) (s : State) : Result :=
  let a := s.shiftOperand x y
  running (s.setResultFlag x (a <<< 1) (msbOf a))

/-- What Cxkk does with the drawn byte `r`: `V[x] <- r & kk`; the draw is consumed (42_alu.md R133). -/
def execRndWith (r : Byte) (x : Nibble) (kk : Byte) (s : State) : Result :=
  running (s.setV x (r &&& kk)).drawn

/-- `Cxkk` (42_alu.md R133) on the byte that `rnd_in` supplies. -/
def execRnd (x : Nibble) (kk : Byte) (s : State) : Result := execRndWith s.rndByte x kk s

end Sys2Proof.Machine
end

