-- ==== Sys2Proof/Machine/Control.lean ====
section
/-! DEFINITION. The meanings of the control transfers and skips (spec/41_control_flow.md R100 to R107). On entry PC is the
provisional PC (spec/40_execution_cycle.md R91). -/

namespace Sys2Proof.Machine

/-- `00EE` (41_control_flow.md R100): `PC <- STACK[SP] & 0xFFF; SP <- (SP - 1) mod 16`. -/
def execRet (s : State) : Result := running (s.setPc (s.slot s.sp)).pop

/-- `1nnn` (41_control_flow.md R101): `PC <- nnn`. -/
def execJp (nnn : Addr) (s : State) : Result := running (s.setPc (addrWord nnn))

/-- `2nnn` (41_control_flow.md R102): pushes the provisional PC, then `PC <- nnn`. -/
def execCall (nnn : Addr) (s : State) : Result := running ((s.push s.pc).setPc (addrWord nnn))

/-- `Bnnn` (41_control_flow.md R103): `PC <- (nnn + V[0]) & 0xFFF`. -/
def execJpV0 (nnn : Addr) (s : State) : Result := running (s.setPc (addrWord nnn + s.getVWord 0))

/-- `3xkk` (41_control_flow.md R104): skip if `V[x] = kk`. -/
def execSeImm (x : Nibble) (kk : Byte) (s : State) : Result := running (s.skipIf (s.getV x == kk))

/-- `4xkk` (41_control_flow.md R105): skip if `V[x] != kk`. -/
def execSneImm (x : Nibble) (kk : Byte) (s : State) : Result := running (s.skipIf (s.getV x != kk))

/-- `5xyN` (41_control_flow.md R106): skip if `V[x] = V[y]`; `n` is ignored (30_encoding.md R76). -/
def execSeReg (x y _n : Nibble) (s : State) : Result := running (s.skipIf (s.getV x == s.getV y))

/-- `9xyN` (41_control_flow.md R107): skip if `V[x] != V[y]`; `n` is ignored (30_encoding.md R76). -/
def execSneReg (x y _n : Nibble) (s : State) : Result := running (s.skipIf (s.getV x != s.getV y))

end Sys2Proof.Machine
end

