-- ==== Sys2Proof/Machine/Display.lean ====
section
/-! DEFINITION. The meanings of CLS and DRW (spec/44_display.md R161, R162). -/

namespace Sys2Proof.Machine

/-- `00E0` (44_display.md R161): every pixel clear, `fb_changed` asserted. -/
def execCls (s : State) : Result := runningDrawn s.clearScreen

/-- `Dxyn` (44_display.md R162): the XOR-blit of `n` rows from I at `(V[x], V[y])`, both read first, then VF = collision
and `fb_changed`. -/
def execDrw (x y n : Nibble) (s : State) : Result :=
  let a := s.blitRows (s.getV x).toNat (s.getV y).toNat n.toNat
  runningDrawn ({ s with fb := a.fb }.setFlag a.collision)

end Sys2Proof.Machine
end

