-- ==== Sys2Proof/Machine/Fallback.lean ====
section
/-! DEFINITION. The meaning of an unrecognized word (spec/46_fallback.md R190). -/

namespace Sys2Proof.Machine

/-- The fallback (46_fallback.md R190): `emit Diag(w)`, nothing else; PC keeps its provisional value. -/
def execFallback (w : Word) (s : State) : Result := runningDiag w s

end Sys2Proof.Machine
end

