-- ==== Sys2Proof/Machine/IndexMemory.lean ====
section
/-! DEFINITION. The meanings of the index register and memory instructions (spec/43_index_memory.md R141 to R146). -/

namespace Sys2Proof.Machine

/-- `Annn` (43_index_memory.md R141): `I <- zext_16(nnn)`. -/
def execLdI (nnn : Addr) (s : State) : Result := running (s.setI (addrWord nnn))

/-- `Fx1E` (43_index_memory.md R142): `I <- (I + V[x]) mod 2^16`; VF is untouched. -/
def execAddI (x : Nibble) (s : State) : Result := running (s.setI (s.i + s.getVWord x))

/-- `Fx29` (43_index_memory.md R143): I is the address of the glyph for digit `V[x]`. -/
def execLdF (x : Nibble) (s : State) : Result := running (s.setI (s.glyphAddr x))

/-- `Fx33` (43_index_memory.md R144): hundreds, tens and ones of `V[x]` at I, I+1, I+2. -/
def execLdB (x : Nibble) (s : State) : Result :=
  running (s.storeBytes s.indexBase (bcdDigits (s.getV x)))

/-- `Fx55` (43_index_memory.md R145): `V[0]` to `V[x]` to memory at I, then the index update of R147. -/
def execStoreRegs (x : Nibble) (s : State) : Result :=
  running ((s.storeBytes s.indexBase (s.regList x)).indexUpdate x)

/-- `Fx65` (43_index_memory.md R146): `V[0]` to `V[x]` from memory at I, then the index update of R147. -/
def execLoadRegs (x : Nibble) (s : State) : Result :=
  running ((s.loadBytes s.indexBase (x.toNat + 1)).indexUpdate x)

end Sys2Proof.Machine
end

