-- ==== Sys2Proof/Machine/TimerKeypad.lean ====
section
/-! DEFINITION. The meanings of the timer and keypad instructions (spec/45_timers_keypad.md R170 to R177). -/

namespace Sys2Proof.Machine

/-- `Fx07` (45_timers_keypad.md R170): `V[x] <- DT`. -/
def execLdVxDt (x : Nibble) (s : State) : Result := running (s.setV x s.dt)

/-- `Fx15` (45_timers_keypad.md R171): `DT <- V[x]`. -/
def execLdDtVx (x : Nibble) (s : State) : Result := running { s with dt := s.getV x }

/-- `Fx18` (45_timers_keypad.md R172): `ST <- V[x]`; `audio_on` follows. -/
def execLdStVx (x : Nibble) (s : State) : Result := running { s with st := s.getV x }

/-- `Ex9E` (45_timers_keypad.md R173): skip if `key(V[x]) = 1`. -/
def execSkp (x : Nibble) (s : State) : Result := running (s.skipIf (s.key (s.getV x)))

/-- `ExA1` (45_timers_keypad.md R174): skip if `key(V[x]) = 0`. -/
def execSknp (x : Nibble) (s : State) : Result := running (s.skipIf (!s.key (s.getV x)))

/-- The end of a key wait: the chosen key is stored in `V[x]` (45_timers_keypad.md R175, R177). -/
def storeKey (x k : Nibble) (s : State) : State := (s.setV x (k.setWidth 8)).drawn

/-- Fx0A under `P_KEY_WAIT_MODE = LEVEL` (45_timers_keypad.md R175): any pressed key completes it. -/
def keyWaitLevel (x : Nibble) (s : State) : Result :=
  match keyList s.keys with
  | [] => awaitingKey s
  | k :: ks => running (storeKey x (chooseKey s.draws k ks) s)

/-- Fx0A under `P_KEY_WAIT_MODE = EDGE` (45_timers_keypad.md R177): a key pressed since the last attempt completes it. -/
def keyWaitEdge (x : Nibble) (s : State) : Result :=
  if s.kwActive then
    match keyList (s.keys &&& ~~~s.kwSnap) with
    | [] => awaitingKey { s with kwSnap := s.keys }
    | k :: ks => running { storeKey x (chooseKey s.draws k ks) s with kwActive := false }
  else awaitingKey { s with kwSnap := s.keys, kwActive := true }

/-- `Fx0A` (45_timers_keypad.md R175, R177). -/
def execLdVxK (x : Nibble) (s : State) : Result :=
  match s.cfg.keyWaitMode with
  | .level => keyWaitLevel x s
  | .edge => keyWaitEdge x s

end Sys2Proof.Machine
end

