-- ==== Sys2Proof/Machine/Step.lean ====
section
/-! DEFINITION. One event of the machine (spec/40_execution_cycle.md R90, R96): an instruction step, a tick or a key write,
whichever comes next. -/

namespace Sys2Proof.Machine

/-- `step()` of 40_execution_cycle.md R90: fetch, advance PC, decode, execute. -/
def instrStep (s : State) : Result := exec (decodeWord s.fetchWord) s.advance

/-- One event (40_execution_cycle.md R96): the next of the supply, taken off it and performed. -/
def step (s : State) : Host.Outcome State Fault Refusal :=
  match s.events.next.1 with
  | .step => instrStep s.eventTaken
  | .tick => .next s.eventTaken.tick
  | .keysIn keys => .next (s.eventTaken.keysIn keys)

/-- `s` with the instruction word of a table row stored where the next fetch reads it: at PC and PC+1, each masked
(20_memory.md R53), through the `load` port, with an instruction step as the next event (log entry 21). -/
def State.withFetchWord (s : State) (nbits w : Nat) : State :=
  { s.loadRom s.pc.toNat [hiByte (tableWord nbits w), loByte (tableWord nbits w)] with
    events := { s.events with listed := .step :: s.events.listed } }

end Sys2Proof.Machine
end

