-- ==== Sys2Proof/Safety.lean ====
section
/-! DEFINITION. The words that claims are stated in: which parts of the state an instruction leaves unchanged, which it may
write, the invariant of the machine, and what a safe run is. -/

namespace Sys2Proof.Machine

/-! ### Frames -/

/-- The parts of the state, one for each field of `State`. -/
inductive Part where
  | v
  | i
  | pc
  | sp
  | stack
  | dt
  | st
  | fb
  | keys
  | kwActive
  | kwSnap
  | mem
  | out
  | cfg
  | events
  | draws
deriving DecidableEq, Repr

/-- Part `p` reads the same in `t` as in `s`: register by register, slot by slot, pixel by pixel, byte by byte. -/
def Part.same (p : Part) (s t : State) : Prop :=
  match p with
  | .v => ∀ r, t.getV r = s.getV r
  | .i => t.i = s.i
  | .pc => t.pc = s.pc
  | .sp => t.sp = s.sp
  | .stack => ∀ k, t.slot k = s.slot k
  | .dt => t.dt = s.dt
  | .st => t.st = s.st
  | .fb => ∀ col row, t.pixel col row = s.pixel col row
  | .keys => t.keys = s.keys
  | .kwActive => t.kwActive = s.kwActive
  | .kwSnap => t.kwSnap = s.kwSnap
  | .mem => ∀ a, t.memRead a = s.memRead a
  | .out => t.out = s.out
  | .cfg => t.cfg = s.cfg
  | .events => t.events = s.events
  | .draws => t.draws = s.draws

/-- Every part of the state but those listed is unchanged. -/
def UnchangedExcept (ps : List Part) (s t : State) : Prop := ∀ p, p ∉ ps → p.same s t

/-- Instruction `i` at `s` answers a next state `t` that leaves the outputs `o`, changes nothing but the outputs and the
parts `ps`, and meets `post`. -/
def Completes (i : Instr) (s : State) (ps : List Part) (o : Outputs) (post : State → Prop) : Prop :=
  ∃ t, exec i s = .next t ∧ UnchangedExcept (.out :: ps) s t ∧ t.out = o ∧ post t

/-- The parts an instruction may write, read off the lists of writers in the spec: V (10_state.md R20, R21), I (R22), PC
(R24, 40_execution_cycle.md R91), SP (R26), STACK (R27), DT and ST (R28), FB (R29), KW_ACTIVE and KW_SNAP (R35), memory
(20_memory.md R61), the outputs (R37), the free draws (R33). KEYS is no instruction's (R30), nor are the parameters. -/
def mayWrite : Instr → List Part
  | .cls => [.fb, .out]
  | .ret => [.pc, .sp, .out]
  | .jp _ => [.pc, .out]
  | .call _ => [.pc, .sp, .stack, .out]
  | .seImm _ _ => [.pc, .out]
  | .sneImm _ _ => [.pc, .out]
  | .seReg _ _ _ => [.pc, .out]
  | .ldImm _ _ => [.v, .out]
  | .addImm _ _ => [.v, .out]
  | .ldReg _ _ => [.v, .out]
  | .orReg _ _ => [.v, .out]
  | .andReg _ _ => [.v, .out]
  | .xorReg _ _ => [.v, .out]
  | .addReg _ _ => [.v, .out]
  | .subReg _ _ => [.v, .out]
  | .shr _ _ => [.v, .out]
  | .subn _ _ => [.v, .out]
  | .shl _ _ => [.v, .out]
  | .sneReg _ _ _ => [.pc, .out]
  | .ldI _ => [.i, .out]
  | .jpV0 _ => [.pc, .out]
  | .rnd _ _ => [.v, .out, .draws]
  | .drw _ _ _ => [.v, .fb, .out]
  | .skp _ => [.pc, .out]
  | .sknp _ => [.pc, .out]
  | .ldVxDt _ => [.v, .out]
  | .ldVxK _ => [.v, .pc, .kwActive, .kwSnap, .out, .draws]
  | .ldDtVx _ => [.dt, .out]
  | .ldStVx _ => [.st, .out]
  | .addI _ => [.i, .out]
  | .ldF _ => [.i, .out]
  | .ldB _ => [.mem, .out]
  | .storeRegs _ => [.mem, .i, .out]
  | .loadRegs _ => [.v, .i, .out]
  | .fallback _ => [.out]

/-- The instruction writes VF: as a flag ("8xy4, 8xy5, 8xy6, 8xy7, 8xyE and Dxyn", 10_state.md R21) or because `x = 0xF`
names it in a form that writes `V[x]` (R20). -/
def writesVF : Instr → Bool
  | .cls => false
  | .ret => false
  | .jp _ => false
  | .call _ => false
  | .seImm _ _ => false
  | .sneImm _ _ => false
  | .seReg _ _ _ => false
  | .ldImm x _ => x == 0xF
  | .addImm x _ => x == 0xF
  | .ldReg x _ => x == 0xF
  | .orReg x _ => x == 0xF
  | .andReg x _ => x == 0xF
  | .xorReg x _ => x == 0xF
  | .addReg _ _ => true
  | .subReg _ _ => true
  | .shr _ _ => true
  | .subn _ _ => true
  | .shl _ _ => true
  | .sneReg _ _ _ => false
  | .ldI _ => false
  | .jpV0 _ => false
  | .rnd x _ => x == 0xF
  | .drw _ _ _ => true
  | .skp _ => false
  | .sknp _ => false
  | .ldVxDt x => x == 0xF
  | .ldVxK x => x == 0xF
  | .ldDtVx _ => false
  | .ldStVx _ => false
  | .addI _ => false
  | .ldF _ => false
  | .ldB _ => false
  | .storeRegs _ => false
  | .loadRegs x => x == 0xF
  | .fallback _ => false

/-! ### Sprites -/

/-- A 1 bit of the sprite at `I` of height `n`, drawn at `(cx, cy)`, falls on the pixel `(col, row)` (44_display.md R162;
bit 7 is column 0, R163). -/
def SpriteCovers (s : State) (cx cy n : Nat) (col : Fin 64) (row : Fin 32) : Prop :=
  ∃ r < n, ∃ c < 8, (s.memRead (s.i.toNat + r)).getLsbD (7 - c) = true ∧
    (cx + c) % 64 = col.val ∧ (cy + r) % 32 = row.val

/-! ### Sequences of instructions and of ticks -/

/-- Instructions executed one after another, without the fetches between them. -/
def execAll : List Instr → State → Result
  | [], s => .next s
  | i :: is, s =>
    match exec i s with
    | .next t => execAll is t
    | .fault r => .fault r
    | .refused r => .refused r

/-- `n` ticks in a row. -/
def State.ticks (s : State) : Nat → State
  | 0 => s
  | n + 1 => (s.ticks n).tick

/-- How many stop signals the Audio collaborator receives in `n` ticks. -/
def stopSignals (s : State) : Nat → Nat
  | 0 => 0
  | n + 1 => stopSignals s n + if audioSignal (s.ticks n) (s.ticks n).tick = some .stop then 1 else 0

/-! ### Invariants -/

/-- What every event of the machine keeps. -/
structure State.Inv (s : State) : Prop where
  /-- memory is in its canonical form -/
  memCanonical : Memory.wf s.cfg.fontData s.mem = true
  /-- "PC always holds 0x000 to 0xFFF" (10_state.md R24) -/
  pcInMemory : s.pc.toNat < 4096
  /-- "every slot value is in 0x000 to 0xFFF" (10_state.md R27) -/
  slotsInMemory : ∀ k, (s.slot k).toNat < 4096
  /-- the wait latch is used in EDGE mode only (10_state.md R32) -/
  latchClearInLevel : s.cfg.keyWaitMode = .level → s.kwActive = false ∧ s.kwSnap = 0
  /-- the diagnostic carries an unrecognized word (46_fallback.md R191, 30_encoding.md R77) -/
  diagUnrecognized : ∀ w, s.out.diag = some w → unrecognized w = true
  /-- "a single instruction can produce at most one event of its own" (60_exceptions.md R206) -/
  waitAlone : s.out.status = .awaitingKey → s.out.diag = none ∧ s.out.fbChanged = false
  /-- "A pending Fx0A leaves PC at the Fx0A itself" (10_state.md R32) -/
  waitAtFx0A : s.out.status = .awaitingKey → ∃ x, decodeWord s.fetchWord = .ldVxK x

/-- Under `P_FONT_WRITE = IGNORE` the font region reads as `P_FONT_DATA` (10_state.md R39, 20_memory.md R60). -/
def State.FontIntact (s : State) : Prop :=
  s.cfg.fontWrite = .ignore ∧ ∀ a (h : a < 80), s.memRead a = s.cfg.fontData[a]

/-- `t` is `s` but for the bits `I[15:12]` (10_state.md R23). -/
def SameButHighIndexBits (s t : State) : Prop :=
  t = { s with i := t.i } ∧ t.i &&& 0xFFF = s.i &&& 0xFFF

/-- PC and every return address are even (10_state.md R25). -/
def State.EvenAddresses (s : State) : Prop :=
  s.pc.toNat % 2 = 0 ∧ ∀ k, (s.slot k).toNat % 2 = 0

/-- The instruction transfers control, if at all, to an even address (10_state.md R25). -/
def EvenTarget (i : Instr) (s : State) : Prop :=
  match i with
  | .cls => True
  | .ret => True
  | .jp nnn => nnn.toNat % 2 = 0
  | .call nnn => nnn.toNat % 2 = 0
  | .seImm _ _ => True
  | .sneImm _ _ => True
  | .seReg _ _ _ => True
  | .ldImm _ _ => True
  | .addImm _ _ => True
  | .ldReg _ _ => True
  | .orReg _ _ => True
  | .andReg _ _ => True
  | .xorReg _ _ => True
  | .addReg _ _ => True
  | .subReg _ _ => True
  | .shr _ _ => True
  | .subn _ _ => True
  | .shl _ _ => True
  | .sneReg _ _ _ => True
  | .ldI _ => True
  | .jpV0 nnn => (nnn.toNat + (s.getV 0).toNat) % 2 = 0
  | .rnd _ _ => True
  | .drw _ _ _ => True
  | .skp _ => True
  | .sknp _ => True
  | .ldVxDt _ => True
  | .ldVxK _ => True
  | .ldDtVx _ => True
  | .ldStVx _ => True
  | .addI _ => True
  | .ldF _ => True
  | .ldB _ => True
  | .storeRegs _ => True
  | .loadRegs _ => True
  | .fallback _ => True

/-! ### Events, fair runs and safe runs -/

/-- The supply `q` gives the event `e` and leaves the supply `q'` (log entry 2). -/
inductive EventSupply.Gives : EventSupply → Event → EventSupply → Prop where
  | listed (e : Event) (es rs : List Event) (n : Nat) : Gives ⟨e :: es, rs, n⟩ e ⟨es, rs, n⟩
  | recurring (e : Event) (es : List Event) (n : Nat) : Gives ⟨[], e :: es, n⟩ e ⟨es, e :: es, n⟩
  | free (n : Nat) : Gives ⟨[], [], n⟩ (Config.hostEvent n) ⟨[], [], n + 1⟩

/-- The event `e` performed on `s`, from which it has been taken off: an instruction step, a tick or a key write
(40_execution_cycle.md R96). -/
def performed (e : Event) (s : State) : Result :=
  match e with
  | .step => instrStep s
  | .tick => .next s.tick
  | .keysIn keys => .next (s.keysIn keys)

/-- After `n` events from `s` the machine is in state `t`. -/
def Reaches (s : State) (n : Nat) (t : State) : Prop := Sys2Proof.core.run n s = .next t

/-- The fairness of 40_execution_cycle.md R97, "ticks keep occurring while steps do": after any number of events of the run
from `s` a tick still comes. -/
def FairTicks (s : State) : Prop := ∀ n, ∃ m ≥ n, ∃ t q, Reaches s m t ∧ t.events.Gives .tick q

/-- A safe run: no number of events stops the machine (40_execution_cycle.md R94, R98). -/
def Safe (s : State) : Prop := ∀ n, ∃ t, Reaches s n t

end Sys2Proof.Machine
end

