-- ==== Sys2Proof/Certificates/Slice0/Obligations.lean ====
section
/-! DEFINITION. The statements for the provers. Each docstring names the rules of spec/ that it formalises. A clause that
rests on a decision the spec marks as its own (D<n> of 92_eei_decisions.md) or on the model's choice names it. -/

open Sys2Proof Sys2Proof.Machine

/-! ### Encoding and decoding -/

/-- Words written out from 30_encoding.md R72 and the decoder vectors of 95_test_vectors.md §2.1 decode to the
instructions they stand for, one or more for each family. -/
def Obligations.DecodeSampleWords : Prop :=
  decodeWord 0x00E0 = .cls ∧ decodeWord 0x00EE = .ret ∧ decodeWord 0x1ABC = .jp 0xABC ∧
  decodeWord 0x512F = .seReg 0x1 0x2 0xF ∧ decodeWord 0x8AB0 = .ldReg 0xA 0xB ∧
  decodeWord 0x8ABE = .shl 0xA 0xB ∧ decodeWord 0xA300 = .ldI 0x300 ∧ decodeWord 0xD12F = .drw 0x1 0x2 0xF ∧
  decodeWord 0xE1A1 = .sknp 0x1 ∧ decodeWord 0xF10A = .ldVxK 0x1 ∧ decodeWord 0xF165 = .loadRegs 0x1 ∧
  decodeWord 0x0123 = .fallback 0x0123

/-- Decode and encode agree: the word of every well-formed instruction decodes to that instruction, with every operand at
every value (30_encoding.md R71 to R76). -/
def Obligations.DecodeOfEncodeIsIdentity : Prop :=
  ∀ i : Instr, i.wellFormed = true → decodeWord (encode i) = i

/-- Every 16-bit word decodes to a well-formed instruction whose encoding is that word: decoding is total and drops no bit
(30_encoding.md R73: "every 16-bit value maps to exactly one handler"). -/
def Obligations.EveryWordDecodesAndEncodesBack : Prop :=
  ∀ w : Word, (decodeWord w).wellFormed = true ∧ encode (decodeWord w) = w

/-- Rows 1 to 34 are pairwise disjoint: no word matches two of them (30_encoding.md R74, which the spec derives). -/
def Obligations.OpcodeRowsAreDisjoint : Prop :=
  opcodeRows.length = 34 ∧
  opcodeRows.Pairwise fun r r' => ∀ w : Word, ¬(r.hits w = true ∧ r'.hits w = true)

/-- A word takes the fallback exactly when it is one of the words 30_encoding.md R77 lists op by op (R77 is derived by the
spec), and the fallback it takes carries the word itself. -/
def Obligations.FallbackTakesExactlyTheUnrecognizedWords : Prop :=
  ∀ w : Word,
    (decodeWord w = .fallback w ↔
      ((w.toNat / 4096 = 0x0 ∧ w.toNat ≠ 0x00E0 ∧ w.toNat ≠ 0x00EE) ∨
       (w.toNat / 4096 = 0x8 ∧ 0x8 ≤ w.toNat % 16 ∧ w.toNat % 16 ≠ 0xE) ∨
       (w.toNat / 4096 = 0xE ∧ w.toNat % 256 ≠ 0x9E ∧ w.toNat % 256 ≠ 0xA1) ∨
       (w.toNat / 4096 = 0xF ∧
        w.toNat % 256 ∉ [0x07, 0x0A, 0x15, 0x18, 0x1E, 0x29, 0x33, 0x55, 0x65]))) ∧
    ∀ w', decodeWord w = .fallback w' → w' = w

/-! ### The step and the other events -/

/-- 40_execution_cycle.md R90: where an instruction step is the next event, `step` executes the instruction decoded from
the two bytes at PC, high byte first, on the state whose PC is `(A + 2) & 0xFFF`. The supply of events, the model's own
field (log entry 2, a design choice), loses the event. -/
def Obligations.StepRunsTheDecodedInstruction : Prop :=
  ∀ (s : State) (q : EventSupply), s.events.Gives .step q →
    step s = exec
      (decodeWord (BitVec.ofNat 16 (256 * (s.memRead s.pc.toNat).toNat + (s.memRead (s.pc.toNat + 1)).toNat)))
      { s with events := q, pc := (s.pc + 2) &&& 0xFFF }

/-- 45_timers_keypad.md R181: a tick decrements each timer that is not 0, leaves one at 0 there, writes nothing else, and
signals stop exactly when it takes ST from 1 to 0. The supply of events, the model's own field (log entry 2, a design
choice), loses the event. -/
def Obligations.TickCountsDownBothTimers : Prop :=
  ∀ (s : State) (q : EventSupply), s.events.Gives .tick q →
    ∃ t, step s = .next t ∧ UnchangedExcept [.dt, .st, .events] s t ∧ t.events = q ∧
      t.dt.toNat = s.dt.toNat - 1 ∧ t.st.toNat = s.st.toNat - 1 ∧
      (audioSignal s t = some .stop ↔ s.st = 1)

/-- A key write replaces all of KEYS at once and changes nothing else (10_state.md R36, R40; the spec's decision D19). The
supply of events, the model's own field (log entry 2, a design choice), loses the event. -/
def Obligations.KeyWriteReplacesAllKeys : Prop :=
  ∀ (s : State) (q : EventSupply) (k : Word), s.events.Gives (.keysIn k) q →
    ∃ t, step s = .next t ∧ UnchangedExcept [.keys, .events] s t ∧ t.events = q ∧ t.keys = k

/-- 40_execution_cycle.md R94: a step has exactly two outcomes, `Running` and `AwaitingKey`. The second means that the
instruction is Fx0A and no key press completes it, and it leaves the state as it was, PC included, under LEVEL; under EDGE
only the wait latch changes. What completes Fx0A is 45_timers_keypad.md R175 for LEVEL (no key is pressed) and R177 for
EDGE (the wait begins, or no key is new), the spec's decisions D12 and D13, EDGE being its own construction (log entry
11). The outputs carry the status (log entry 20), and the supply of events loses the event (log entry 2), both the model's
choice. The premise on PC is the invariant of R24. -/
def Obligations.StepRunsOrAwaitsKey : Prop :=
  ∀ (s : State) (q : EventSupply), s.events.Gives .step q → s.pc.toNat < 4096 →
    ∃ t, step s = .next t ∧
      (t.out.status = .running ∨
       (t.out.status = .awaitingKey ∧ (∃ x, decodeWord s.fetchWord = .ldVxK x) ∧
        (s.cfg.keyWaitMode = .level → s.keys = 0 ∧ UnchangedExcept [.out, .events] s t) ∧
        (s.cfg.keyWaitMode = .edge →
          (s.kwActive = false ∨ s.keys &&& ~~~s.kwSnap = 0) ∧
          UnchangedExcept [.out, .events, .kwActive, .kwSnap] s t)))

/-- Every interleaving of steps, ticks and key writes is a run of the machine (40_execution_cycle.md R96, R97): from every
state, whatever finite list of events comes first, none of them stops the machine, they are taken off the supply one by one
in that order, none lost or added, and the event after the first `j` is performed on the state that those `j` reach: an
instruction step, a tick or a key write as the list says. The form of the supply is the model's own (log entry 2, a design
choice). -/
def Obligations.EveryInterleavingIsARun : Prop :=
  ∀ (s : State) (es rs : List Event) (n : Nat),
    (∀ k ≤ es.length, ∃ t, Reaches { s with events := ⟨es, rs, n⟩ } k t ∧ t.events = ⟨es.drop k, rs, n⟩) ∧
    ∀ (j : Nat) (h : j < es.length), ∃ t, Reaches { s with events := ⟨es, rs, n⟩ } j t ∧
      step t = performed es[j] { t with events := ⟨es.drop (j + 1), rs, n⟩ }

/-- An event among the recurring ones never ceases: from every state, after any number of events, it comes again before
another round is over. So with a tick among them the run is fair in the sense of 40_execution_cycle.md R97, "ticks keep
occurring while steps do", whatever the ratio of steps to ticks. The form of the supply is the model's own (log entry 2, a
design choice). -/
def Obligations.RecurringEventsKeepOccurring : Prop :=
  ∀ (s : State) (e : Event), e ∈ s.events.recurring →
    ∀ n, ∃ m, n ≤ m ∧ m < n + s.events.listed.length + s.events.recurring.length ∧
      ∃ t q, Reaches s m t ∧ t.events.Gives e q

/-- A program that has ended in a jump to itself has not stopped the chip: PC stays there, and "timers keep counting down
after any such point" (40_execution_cycle.md R98), so that under the assumption of R97 that ticks keep occurring, both
timers reach 0. The premise on PC is the invariant of 10_state.md R24; that a tick keeps coming is said of the model's
supply of events (log entry 2, a design choice). -/
def Obligations.FairTicksExpireTheTimersOfAnEndedProgram : Prop :=
  ∀ s : State, s.pc.toNat < 4096 → decodeWord s.fetchWord = .jp (s.pc.setWidth 12) → FairTicks s →
    ∃ n, ∀ m ≥ n, ∃ t, Reaches s m t ∧ t.pc = s.pc ∧ t.dt = 0 ∧ t.st = 0

/-- No event of the machine faults, traps or stops it, whatever the state, and so no run ever stops (40_execution_cycle.md
R94, R98, R99; 60_exceptions.md R200). -/
def Obligations.EveryRunIsSafe : Prop := ∀ s : State, Safe s

/-! ### Invariants and whole-machine rules -/

/-- The invariant holds at reset, for every value of the parameters (10_state.md R38). Its clause that memory is in
canonical form is the model's choice (log entry 27). -/
def Obligations.ResetMeetsTheInvariant : Prop := ∀ p : Params, (State.resetWith p).Inv

/-- Every event of the machine keeps the invariant: PC in memory (10_state.md R24, D3), return addresses in memory (R27),
the wait latch clear in LEVEL mode (R32), the diagnostic unrecognized and never beside a wait (60_exceptions.md R206), a
pending wait at its Fx0A (R32), and memory in canonical form, a clause that is the model's choice (log entry 27). -/
def Obligations.EveryEventKeepsTheInvariant : Prop :=
  ∀ s t : State, s.Inv → step s = .next t → t.Inv

/-- Under `P_FONT_WRITE = IGNORE` the font region stays as it was initialised, at reset and after every event
(10_state.md R39, 20_memory.md R60; the spec's decision D7). -/
def Obligations.FontIsImmutableUnderIgnore : Prop :=
  (∀ p : Params, p.fontWrite = .ignore → (State.resetWith p).FontIntact) ∧
  ∀ s t : State, s.FontIntact → step s = .next t → t.FontIntact

/-- No event changes the parameters (00_scope.md R5), the model's own field (log entry 1). -/
def Obligations.ParametersNeverChange : Prop :=
  ∀ s t : State, step s = .next t → t.cfg = s.cfg

/-- Whatever the instruction, it changes no part of the state but those the spec's lists of writers name for it
(`mayWrite`): general registers, I, PC, SP, STACK, timers, framebuffer and keypad (10_state.md R20 to R30), the wait latch
(R35), every byte of memory (20_memory.md R61), the outputs (10_state.md R37). Fx33 and Fx55 have memory exempt as a whole
here: the bytes outside their transfers are the subject of `BcdDigitsAreStored` and `RegistersAreStored`. That the
parameters, the supply of events and the counter of draws, fields of the model's own (log entries 1 to 4), and the field
that holds the outputs (log entry 20) are written as `mayWrite` says is the model's choice. -/
def Obligations.InstructionsWriteOnlyWhatTheSpecNames : Prop :=
  ∀ (i : Instr) (s t : State), exec i s = .next t → UnchangedExcept (mayWrite i) s t

/-- 10_state.md R26: SP wraps modulo 16 on increment and decrement; only 2nnn, which increments it, and 00EE, which
decrements it, write it. No other instruction does, and no event but an instruction step, whichever the supply of events
gives (log entry 2, a design choice). -/
def Obligations.OnlyCallAndRetMoveTheStackPointer : Prop :=
  (∀ (s : State) (nnn : Addr), ∃ t, exec (.call nnn) s = .next t ∧ t.sp.toNat = (s.sp.toNat + 1) % 16) ∧
  (∀ s : State, ∃ t, exec .ret s = .next t ∧ t.sp.toNat = (s.sp.toNat + 15) % 16) ∧
  (∀ (i : Instr) (s t : State), i ≠ .ret → (∀ nnn, i ≠ .call nnn) → exec i s = .next t → t.sp = s.sp) ∧
  (∀ (s t : State), (∀ q, ¬s.events.Gives .step q) → step s = .next t → t.sp = s.sp)

/-- VF changes only through the opcodes that set it as a flag and those that name it as their destination; every
flag-setting opcode leaves 0 or 1 in it (10_state.md R21; the order of the two writes is the spec's decision D10). -/
def Obligations.OnlyFlagSettersAndDestinationsWriteVF : Prop :=
  (∀ (i : Instr) (s t : State), writesVF i = false → exec i s = .next t → t.getV 0xF = s.getV 0xF) ∧
  (∀ (i : Instr) (s t : State) (x y n : Nibble),
    i ∈ [.addReg x y, .subReg x y, .shr x y, .subn x y, .shl x y, .drw x y n] →
    exec i s = .next t → t.getV 0xF = 0 ∨ t.getV 0xF = 1)

/-- The bits `I[15:12]` are never observable (10_state.md R23, which the spec derives): two machines that differ in them
alone make the same event and still differ in them alone. It compares two runs: the two machines have equal counters, and
so by log entries 2, 3 and 4 (design choices) the same next event, the same random byte and the same choice of key. -/
def Obligations.HighIndexBitsAreUnobservable : Prop :=
  ∀ s t s' : State, SameButHighIndexBits s t → step s = .next s' →
    ∃ t', step t = .next t' ∧ SameButHighIndexBits s' t'

/-- PC stays even for programs whose every control-transfer target is even (10_state.md R25, R39; 90_conflicts.md C2; the
spec's decision D2 is that nothing forces it). -/
def Obligations.EvenTargetsKeepPcEven : Prop :=
  ∀ (i : Instr) (s t : State), s.EvenAddresses → EvenTarget i s → exec i s = .next t → t.EvenAddresses

/-! ### Control transfer and skips -/

/-- JP `1nnn` (41_control_flow.md R101): `PC <- nnn`, nothing else changes. -/
def Obligations.JumpSetsPc : Prop :=
  ∀ (s : State) (nnn : Addr),
    decodeWord (0x1#4 ++ nnn) = .jp nnn ∧
    Completes (.jp nnn) s [.pc] Outputs.quiet fun t => t.pc.toNat = nnn.toNat

/-- JP V0 `Bnnn` (41_control_flow.md R103; the mask is the spec's decision D3): `PC <- (nnn + V[0]) & 0xFFF`. -/
def Obligations.JumpV0SetsPcModulo4096 : Prop :=
  ∀ (s : State) (nnn : Addr),
    decodeWord (0xB#4 ++ nnn) = .jpV0 nnn ∧
    Completes (.jpV0 nnn) s [.pc] Outputs.quiet fun t => t.pc.toNat = (nnn.toNat + (s.getV 0).toNat) % 4096

/-- CALL `2nnn` (41_control_flow.md R102): SP is incremented modulo 16, the slot it then indexes takes the provisional PC,
every other slot is kept, and `PC <- nnn`. -/
def Obligations.CallPushesThePc : Prop :=
  ∀ (s : State) (nnn : Addr),
    decodeWord (0x2#4 ++ nnn) = .call nnn ∧
    Completes (.call nnn) s [.pc, .sp, .stack] Outputs.quiet fun t =>
      t.pc.toNat = nnn.toNat ∧ t.sp.toNat = (s.sp.toNat + 1) % 16 ∧
      ∀ k, t.slot k = if k.toNat = (s.sp.toNat + 1) % 16 then s.pc else s.slot k

/-- RET `00EE` (41_control_flow.md R100): `PC <- STACK[SP] & 0xFFF`, SP is decremented modulo 16, the slot is not
cleared. -/
def Obligations.RetPopsThePc : Prop :=
  ∀ s : State,
    decodeWord 0x00EE = .ret ∧
    Completes .ret s [.pc, .sp] Outputs.quiet fun t =>
      t.pc.toNat = (s.slot s.sp).toNat % 4096 ∧ t.sp.toNat = (s.sp.toNat + 15) % 16

/-- A call and a return restore PC and SP and, up to 16 nested calls, so does every sequence of calls followed by as many
returns; the 17th nested call overwrites the slot that the 1st wrote (41_control_flow.md R100, R102, R108; R108 is derived
by the spec). The premise on PC is the invariant of 10_state.md R24. -/
def Obligations.SixteenNestedCallsReturn : Prop :=
  (∀ (s : State) (targets : List Addr), s.pc.toNat < 4096 → targets.length ≤ 16 →
    ∃ t, execAll (targets.map Instr.call ++ List.replicate targets.length Instr.ret) s = .next t ∧
      t.pc = s.pc ∧ t.sp = s.sp ∧ UnchangedExcept [.pc, .sp, .stack, .out] s t) ∧
  (∀ (s : State) (first last : Addr) (targets : List Addr), targets.length = 15 →
    ∃ t u, execAll ((first :: targets).map Instr.call) s = .next t ∧ t.slot (s.sp + 1) = s.pc ∧
      exec (.call last) t = .next u ∧ u.sp = s.sp + 1 ∧ u.slot (s.sp + 1) = t.pc)

/-- SE and SNE with an immediate, `3xkk` and `4xkk` (41_control_flow.md R104, R105): a taken skip adds 2 to the
provisional PC modulo 4096; one not taken leaves it. -/
def Obligations.SkipOnImmediate : Prop :=
  ∀ (s : State) (x : Nibble) (kk : Byte),
    (decodeWord (0x3#4 ++ x ++ kk) = .seImm x kk ∧
     Completes (.seImm x kk) s [.pc] Outputs.quiet fun t =>
       t.pc.toNat = if s.getV x = kk then (s.pc.toNat + 2) % 4096 else s.pc.toNat) ∧
    (decodeWord (0x4#4 ++ x ++ kk) = .sneImm x kk ∧
     Completes (.sneImm x kk) s [.pc] Outputs.quiet fun t =>
       t.pc.toNat = if s.getV x ≠ kk then (s.pc.toNat + 2) % 4096 else s.pc.toNat)

/-- SE and SNE on two registers, `5xyN` and `9xyN` (41_control_flow.md R106, R107), for every `N`, which is ignored. -/
def Obligations.SkipOnRegisters : Prop :=
  ∀ (s : State) (x y n : Nibble),
    (decodeWord (0x5#4 ++ x ++ y ++ n) = .seReg x y n ∧
     Completes (.seReg x y n) s [.pc] Outputs.quiet fun t =>
       t.pc.toNat = if s.getV x = s.getV y then (s.pc.toNat + 2) % 4096 else s.pc.toNat) ∧
    (decodeWord (0x9#4 ++ x ++ y ++ n) = .sneReg x y n ∧
     Completes (.sneReg x y n) s [.pc] Outputs.quiet fun t =>
       t.pc.toNat = if s.getV x ≠ s.getV y then (s.pc.toNat + 2) % 4096 else s.pc.toNat)

/-- SKP and SKNP, `Ex9E` and `ExA1` (45_timers_keypad.md R173, R174) with the key index of R176 (the spec's decision D11):
under LOW_NIBBLE the key is `KEYS[V[x] mod 16]`, under OUT_OF_RANGE_RELEASED a value above 15 names a released key. -/
def Obligations.SkipOnKey : Prop :=
  ∀ (s : State) (x : Nibble),
    ∃ pressed : Bool,
      (s.cfg.keyIndex = .lowNibble → pressed = s.keys.getLsbD ((s.getV x).toNat % 16)) ∧
      (s.cfg.keyIndex = .outOfRangeReleased → (s.getV x).toNat < 16 → pressed = s.keys.getLsbD (s.getV x).toNat) ∧
      (s.cfg.keyIndex = .outOfRangeReleased → 16 ≤ (s.getV x).toNat → pressed = false) ∧
      (decodeWord (0xE#4 ++ x ++ 0x9E#8) = .skp x ∧
       Completes (.skp x) s [.pc] Outputs.quiet fun t =>
         t.pc.toNat = if pressed = true then (s.pc.toNat + 2) % 4096 else s.pc.toNat) ∧
      (decodeWord (0xE#4 ++ x ++ 0xA1#8) = .sknp x ∧
       Completes (.sknp x) s [.pc] Outputs.quiet fun t =>
         t.pc.toNat = if pressed = false then (s.pc.toNat + 2) % 4096 else s.pc.toNat)

/-! ### 8-bit ALU -/

/-- LD `6xkk` and LD `8xy0` (42_alu.md R122, R124): V[x] takes the immediate or V[y]; every other register, VF among them,
is kept. -/
def Obligations.LoadRegister : Prop :=
  ∀ (s : State) (x y : Nibble) (kk : Byte),
    (decodeWord (0x6#4 ++ x ++ kk) = .ldImm x kk ∧
     Completes (.ldImm x kk) s [.v] Outputs.quiet fun t =>
       ∀ r, t.getV r = if r = x then kk else s.getV r) ∧
    (decodeWord (0x8#4 ++ x ++ y ++ 0x0#4) = .ldReg x y ∧
     Completes (.ldReg x y) s [.v] Outputs.quiet fun t =>
       ∀ r, t.getV r = if r = x then s.getV y else s.getV r)

/-- ADD `7xkk` (42_alu.md R123): the sum modulo 256 in V[x]; no flag, every other register is kept. -/
def Obligations.AddImmediateSetsNoFlag : Prop :=
  ∀ (s : State) (x : Nibble) (kk : Byte),
    decodeWord (0x7#4 ++ x ++ kk) = .addImm x kk ∧
    Completes (.addImm x kk) s [.v] Outputs.quiet fun t =>
      (t.getV x).toNat = ((s.getV x).toNat + kk.toNat) % 256 ∧ ∀ r, r ≠ x → t.getV r = s.getV r

/-- OR, AND and XOR, `8xy1`, `8xy2`, `8xy3` (42_alu.md R125, R126, R127): bit by bit into V[x]; no flag, every other
register is kept. -/
def Obligations.BitwiseOperations : Prop :=
  ∀ (s : State) (x y : Nibble),
    (decodeWord (0x8#4 ++ x ++ y ++ 0x1#4) = .orReg x y ∧
     Completes (.orReg x y) s [.v] Outputs.quiet fun t =>
       (∀ k, (t.getV x).getLsbD k = ((s.getV x).getLsbD k || (s.getV y).getLsbD k)) ∧
       ∀ r, r ≠ x → t.getV r = s.getV r) ∧
    (decodeWord (0x8#4 ++ x ++ y ++ 0x2#4) = .andReg x y ∧
     Completes (.andReg x y) s [.v] Outputs.quiet fun t =>
       (∀ k, (t.getV x).getLsbD k = ((s.getV x).getLsbD k && (s.getV y).getLsbD k)) ∧
       ∀ r, r ≠ x → t.getV r = s.getV r) ∧
    (decodeWord (0x8#4 ++ x ++ y ++ 0x3#4) = .xorReg x y ∧
     Completes (.xorReg x y) s [.v] Outputs.quiet fun t =>
       (∀ k, (t.getV x).getLsbD k = ((s.getV x).getLsbD k ^^ (s.getV y).getLsbD k)) ∧
       ∀ r, r ≠ x → t.getV r = s.getV r)

/-- ADD, SUB and SUBN on registers, `8xy4`, `8xy5`, `8xy7` (42_alu.md R128, R129, R131): the carry or not-borrow of the
old operands in VF, the result modulo 256 in V[x], every other register kept. With `x = 0xF` the result is overwritten by
the flag, which is written last (R121, the spec's decision D10). -/
def Obligations.AddAndSubtractSetVF : Prop :=
  ∀ (s : State) (x y : Nibble),
    (decodeWord (0x8#4 ++ x ++ y ++ 0x4#4) = .addReg x y ∧
     Completes (.addReg x y) s [.v] Outputs.quiet fun t =>
       t.getV 0xF = (if (s.getV x).toNat + (s.getV y).toNat ≥ 256 then 1 else 0) ∧
       (x ≠ 0xF → (t.getV x).toNat = ((s.getV x).toNat + (s.getV y).toNat) % 256) ∧
       ∀ r, r ≠ x → r ≠ 0xF → t.getV r = s.getV r) ∧
    (decodeWord (0x8#4 ++ x ++ y ++ 0x5#4) = .subReg x y ∧
     Completes (.subReg x y) s [.v] Outputs.quiet fun t =>
       t.getV 0xF = (if (s.getV x).toNat ≥ (s.getV y).toNat then 1 else 0) ∧
       (x ≠ 0xF → (t.getV x).toNat = (256 + (s.getV x).toNat - (s.getV y).toNat) % 256) ∧
       ∀ r, r ≠ x → r ≠ 0xF → t.getV r = s.getV r) ∧
    (decodeWord (0x8#4 ++ x ++ y ++ 0x7#4) = .subn x y ∧
     Completes (.subn x y) s [.v] Outputs.quiet fun t =>
       t.getV 0xF = (if (s.getV y).toNat ≥ (s.getV x).toNat then 1 else 0) ∧
       (x ≠ 0xF → (t.getV x).toNat = (256 + (s.getV y).toNat - (s.getV x).toNat) % 256) ∧
       ∀ r, r ≠ x → r ≠ 0xF → t.getV r = s.getV r)

/-- SHR and SHL, `8xy6`, `8xyE` (42_alu.md R130, R132, R134; the source register is the spec's decision D9): the bit
shifted out in VF, the shifted operand in V[x], every other register kept. With `x = 0xF` the result is overwritten by the
flag, which is written last (R121, D10). -/
def Obligations.ShiftsMoveTheLostBitToVF : Prop :=
  ∀ (s : State) (x y : Nibble) (a : Byte),
    (s.cfg.shiftSource = .vx → a = s.getV x) → (s.cfg.shiftSource = .vy → a = s.getV y) →
    (decodeWord (0x8#4 ++ x ++ y ++ 0x6#4) = .shr x y ∧
     Completes (.shr x y) s [.v] Outputs.quiet fun t =>
       (t.getV 0xF).toNat = a.toNat % 2 ∧ (x ≠ 0xF → (t.getV x).toNat = a.toNat / 2) ∧
       ∀ r, r ≠ x → r ≠ 0xF → t.getV r = s.getV r) ∧
    (decodeWord (0x8#4 ++ x ++ y ++ 0xE#4) = .shl x y ∧
     Completes (.shl x y) s [.v] Outputs.quiet fun t =>
       (t.getV 0xF).toNat = a.toNat / 128 ∧ (x ≠ 0xF → (t.getV x).toNat = 2 * a.toNat % 256) ∧
       ∀ r, r ≠ x → r ≠ 0xF → t.getV r = s.getV r)

/-- RND `Cxkk` (42_alu.md R133; the draw is the spec's decision D14): V[x] takes the drawn byte, the free value
`Config.rndIn` of this draw (log entry 3), masked with `kk`, so it never has a bit that `kk` lacks; one draw is consumed;
VF and every other register are kept. It holds for every value of the free byte. -/
def Obligations.RandomByteIsMasked : Prop :=
  ∀ (s : State) (x : Nibble) (kk : Byte),
    decodeWord (0xC#4 ++ x ++ kk) = .rnd x kk ∧
    Completes (.rnd x kk) s [.v, .draws] Outputs.quiet fun t =>
      (∀ k, (t.getV x).getLsbD k = ((Config.rndIn s.draws).getLsbD k && kk.getLsbD k)) ∧
      t.draws = s.draws + 1 ∧ ∀ r, r ≠ x → t.getV r = s.getV r

/-! ### Index register and memory -/

/-- LD I `Annn` (43_index_memory.md R141): `I <- zext_16(nnn)`. -/
def Obligations.LoadIndex : Prop :=
  ∀ (s : State) (nnn : Addr),
    decodeWord (0xA#4 ++ nnn) = .ldI nnn ∧
    Completes (.ldI nnn) s [.i] Outputs.quiet fun t => t.i.toNat = nnn.toNat

/-- ADD I `Fx1E` (43_index_memory.md R142; the width of the sum is the spec's decision D4): `I <- (I + V[x]) mod 2^16`; VF
is untouched whatever the sum. -/
def Obligations.AddToIndexSetsNoFlag : Prop :=
  ∀ (s : State) (x : Nibble),
    decodeWord (0xF#4 ++ x ++ 0x1E#8) = .addI x ∧
    Completes (.addI x) s [.i] Outputs.quiet fun t => t.i.toNat = (s.i.toNat + (s.getV x).toNat) % 65536

/-- LD F `Fx29` (43_index_memory.md R143; the spec's decision D5): I is five times the low nibble of V[x] under
LOW_NIBBLE, five times V[x] under RAW. -/
def Obligations.FontGlyphAddress : Prop :=
  ∀ (s : State) (x : Nibble),
    decodeWord (0xF#4 ++ x ++ 0x29#8) = .ldF x ∧
    Completes (.ldF x) s [.i] Outputs.quiet fun t =>
      (s.cfg.fontDigit = .lowNibble → t.i.toNat = 5 * ((s.getV x).toNat % 16)) ∧
      (s.cfg.fontDigit = .raw → t.i.toNat = 5 * (s.getV x).toNat)

/-- LD B `Fx33` (43_index_memory.md R144; dropped writes are the spec's decision D7): the hundreds, tens and ones of V[x]
are the three bytes at I, I+1 and I+2, each address modulo 4096; every other byte of memory, and a byte of the font under
IGNORE, is kept; I is unchanged. -/
def Obligations.BcdDigitsAreStored : Prop :=
  ∀ (s : State) (x : Nibble),
    decodeWord (0xF#4 ++ x ++ 0x33#8) = .ldB x ∧
    Completes (.ldB x) s [.mem] Outputs.quiet fun t =>
      ∀ a < 4096, t.memRead a =
        if s.cfg.fontWrite = .ignore ∧ a ≤ 0x04F then s.memRead a
        else if a = s.i.toNat % 4096 then BitVec.ofNat 8 ((s.getV x).toNat / 100)
        else if a = (s.i.toNat + 1) % 4096 then BitVec.ofNat 8 ((s.getV x).toNat / 10 % 10)
        else if a = (s.i.toNat + 2) % 4096 then BitVec.ofNat 8 ((s.getV x).toNat % 10)
        else s.memRead a

/-- LD [I] `Fx55` (43_index_memory.md R145, R140; dropped writes are the spec's decision D7 and the index update D8): V[k]
is the byte at `(I + k) mod 4096` for k = 0 to x, every other byte of memory, and a byte of the font under IGNORE, is
kept; I is kept under UNCHANGED and ends at `I + x + 1` modulo 2^16 under INCREMENT. -/
def Obligations.RegistersAreStored : Prop :=
  ∀ (s : State) (x : Nibble),
    decodeWord (0xF#4 ++ x ++ 0x55#8) = .storeRegs x ∧
    Completes (.storeRegs x) s [.mem, .i] Outputs.quiet fun t =>
      (∀ k : Nibble, k ≤ x → ¬(s.cfg.fontWrite = .ignore ∧ (s.i.toNat + k.toNat) % 4096 ≤ 0x04F) →
        t.memRead (s.i.toNat + k.toNat) = s.getV k) ∧
      (∀ a, ((∀ k : Nibble, k ≤ x → a % 4096 ≠ (s.i.toNat + k.toNat) % 4096) ∨
          (s.cfg.fontWrite = .ignore ∧ a % 4096 ≤ 0x04F)) → t.memRead a = s.memRead a) ∧
      (s.cfg.loadStoreI = .unchanged → t.i = s.i) ∧
      (s.cfg.loadStoreI = .increment → t.i.toNat = (s.i.toNat + x.toNat + 1) % 65536)

/-- LD Vx, [I] `Fx65` (43_index_memory.md R146, R140; the index update is the spec's decision D8): V[k] takes the byte at
`(I + k) mod 4096` for k = 0 to x, every register above x is kept, memory is kept; I as for Fx55. -/
def Obligations.RegistersAreLoaded : Prop :=
  ∀ (s : State) (x : Nibble),
    decodeWord (0xF#4 ++ x ++ 0x65#8) = .loadRegs x ∧
    Completes (.loadRegs x) s [.v, .i] Outputs.quiet fun t =>
      (∀ k : Nibble, t.getV k = if k ≤ x then s.memRead ((s.i.toNat + k.toNat) % 4096) else s.getV k) ∧
      (s.cfg.loadStoreI = .unchanged → t.i = s.i) ∧
      (s.cfg.loadStoreI = .increment → t.i.toNat = (s.i.toNat + x.toNat + 1) % 65536)

/-- `MemRead(a, 2)` (20_memory.md R53): big-endian, the address of each byte masked separately. -/
def Obligations.WordReadIsBigEndianAndWraps : Prop :=
  ∀ (s : State) (a : Nat),
    (s.memReadWord a).toNat = 256 * (s.memRead (a % 4096)).toNat + (s.memRead ((a + 1) % 4096)).toNat

/-- A store is seen by the next fetch (20_memory.md R55, R67, which the spec derives): when Fx55 stores at least two
registers at the next instruction's address, the word fetched next is V[0] and V[1], high byte first. WRITE_THROUGH is the
spec's decision D7. -/
def Obligations.FetchSeesTheStoredInstruction : Prop :=
  ∀ (s : State) (x : Nibble), s.cfg.fontWrite = .writeThrough → 1 ≤ x.toNat → s.i.toNat % 4096 = s.pc.toNat % 4096 →
    ∃ t, exec (.storeRegs x) s = .next t ∧
      t.fetchWord.toNat = 256 * (s.getV 0).toNat + (s.getV 1).toNat

/-! ### Framebuffer -/

/-- CLS `00E0` (44_display.md R161): every pixel is clear, `fb_changed` is asserted, nothing else changes. -/
def Obligations.ClearScreenClearsEveryPixel : Prop :=
  ∀ s : State,
    decodeWord 0x00E0 = .cls ∧
    Completes .cls s [.fb] ⟨.running, true, none⟩ fun t => ∀ col row, t.pixel col row = false

/-- DRW `Dxyn` (44_display.md R162; bit 7 as column 0 is the spec's decision D15, R163, and the old VF as coordinate D10):
the pixels under a 1 bit of the sprite are inverted, every other pixel is kept, VF is 1 if one of them was set and else 0,
every other register, I and memory are kept, `fb_changed` is asserted. -/
def Obligations.DrawXorsTheSpriteAndReportsCollision : Prop :=
  ∀ (s : State) (x y n : Nibble),
    decodeWord (0xD#4 ++ x ++ y ++ n) = .drw x y n ∧
    Completes (.drw x y n) s [.v, .fb] ⟨.running, true, none⟩ fun t =>
      (∀ col row, SpriteCovers s (s.getV x).toNat (s.getV y).toNat n.toNat col row →
        t.pixel col row = !s.pixel col row) ∧
      (∀ col row, ¬SpriteCovers s (s.getV x).toNat (s.getV y).toNat n.toNat col row →
        t.pixel col row = s.pixel col row) ∧
      ((∃ col row, SpriteCovers s (s.getV x).toNat (s.getV y).toNat n.toNat col row ∧ s.pixel col row = true) →
        t.getV 0xF = 1) ∧
      ((∀ col row, SpriteCovers s (s.getV x).toNat (s.getV y).toNat n.toNat col row → s.pixel col row = false) →
        t.getV 0xF = 0) ∧
      ∀ r, r ≠ 0xF → t.getV r = s.getV r

/-- XOR is self-inverse (44_display.md R164, which the spec derives from R162): the same draw twice restores the
framebuffer. The second draw's VF is R162's: 1 exactly when a pixel under the sprite was clear before the first draw, so
always 1 for a sprite with a 1 bit on a blank area. R164's wording for that VF differs; log entry 28 says why R162 is
followed. With `x = 0xF` or `y = 0xF` the first draw moves a coordinate (R164). -/
def Obligations.DrawingTwiceRestoresTheScreen : Prop :=
  ∀ (s : State) (x y n : Nibble), x ≠ 0xF → y ≠ 0xF →
    ∃ t u, exec (.drw x y n) s = .next t ∧ exec (.drw x y n) t = .next u ∧
      (∀ col row, u.pixel col row = s.pixel col row) ∧
      (u.getV 0xF = 1 ↔
        ∃ col row, SpriteCovers s (s.getV x).toNat (s.getV y).toNat n.toNat col row ∧ s.pixel col row = false) ∧
      (u.getV 0xF = 0 ↔
        ∀ col row, SpriteCovers s (s.getV x).toNat (s.getV y).toNat n.toNat col row → s.pixel col row = true)

/-! ### Timers and keypad -/

/-- LD Vx, DT `Fx07` and LD DT, Vx `Fx15` (45_timers_keypad.md R170, R171). -/
def Obligations.DelayTimerTransfers : Prop :=
  ∀ (s : State) (x : Nibble),
    (decodeWord (0xF#4 ++ x ++ 0x07#8) = .ldVxDt x ∧
     Completes (.ldVxDt x) s [.v] Outputs.quiet fun t =>
       ∀ r, t.getV r = if r = x then s.dt else s.getV r) ∧
    (decodeWord (0xF#4 ++ x ++ 0x15#8) = .ldDtVx x ∧
     Completes (.ldDtVx x) s [.dt] Outputs.quiet fun t => t.dt = s.getV x)

/-- LD ST, Vx `Fx18` (45_timers_keypad.md R172, R182; both edges are the spec's decision D17): ST takes V[x]; it starts
audio exactly when ST was 0 and V[x] is not, and stops it exactly when ST was not 0 and V[x] is. -/
def Obligations.SoundTimerStartsAndStopsAudio : Prop :=
  ∀ (s : State) (x : Nibble),
    decodeWord (0xF#4 ++ x ++ 0x18#8) = .ldStVx x ∧
    Completes (.ldStVx x) s [.st] Outputs.quiet fun t =>
      t.st = s.getV x ∧
      (audioSignal s t = some .start ↔ s.st = 0 ∧ s.getV x ≠ 0) ∧
      (audioSignal s t = some .stop ↔ s.st ≠ 0 ∧ s.getV x = 0)

/-- No instruction but Fx18 moves `audio_on` (45_timers_keypad.md R182, the spec's decision D17). -/
def Obligations.OnlyFx18SignalsAudio : Prop :=
  ∀ (i : Instr) (s t : State), (∀ x, i ≠ .ldStVx x) → exec i s = .next t → audioSignal s t = none

/-- After `n` ticks each timer is its value less `n`, held at 0 (45_timers_keypad.md R181, applied again and again; the
source's example "delay timer set to 2, after two 60Hz ticks, equals 0 and stays 0 on a third tick"). -/
def Obligations.TicksCountDownToZero : Prop :=
  ∀ (s : State) (n : Nat),
    (s.ticks n).dt.toNat = s.dt.toNat - n ∧ (s.ticks n).st.toNat = s.st.toNat - n ∧
      UnchangedExcept [.dt, .st] s (s.ticks n)

/-- A sound timer that reaches 0 fires exactly one stop signal, not one per tick (45_timers_keypad.md R182, the spec's
decision D17). -/
def Obligations.OneStopSignalPerCountdown : Prop :=
  ∀ (s : State) (n : Nat), stopSignals s n = if 0 < s.st.toNat ∧ s.st.toNat ≤ n then 1 else 0

/-- LD Vx, K `Fx0A` under LEVEL (45_timers_keypad.md R175; the spec's decisions D12, D13): with no key pressed PC is
rewound by 2 modulo 4096, the step returns AwaitingKey and nothing else changes; with a key pressed one of the pressed
keys, whichever the free draw (log entry 4), is stored in V[x] and the step returns Running. -/
def Obligations.KeyWaitUnderLevel : Prop :=
  ∀ (s : State) (x : Nibble), s.cfg.keyWaitMode = .level →
    decodeWord (0xF#4 ++ x ++ 0x0A#8) = .ldVxK x ∧
    (s.keys = 0 → Completes (.ldVxK x) s [.pc] ⟨.awaitingKey, false, none⟩ fun t =>
      t.pc.toNat = (s.pc.toNat + 4094) % 4096) ∧
    (s.keys ≠ 0 → Completes (.ldVxK x) s [.v, .draws] Outputs.quiet fun t =>
      (∃ k : Nibble, s.keys.getLsbD k.toNat = true ∧ (t.getV x).toNat = k.toNat) ∧
      t.draws = s.draws + 1 ∧ ∀ r, r ≠ x → t.getV r = s.getV r)

/-- LD Vx, K `Fx0A` under EDGE (45_timers_keypad.md R177, the spec's own alternative, decision D12): the first attempt
latches KEYS and waits; a later one with no newly pressed key latches KEYS again and waits; one with newly pressed keys
stores one of them, whichever the free draw, and ends the wait. That the counter `draws`, the model's own field, advances
by one is the model's choice (log entry 4). -/
def Obligations.KeyWaitUnderEdge : Prop :=
  ∀ (s : State) (x : Nibble), s.cfg.keyWaitMode = .edge →
    (s.kwActive = false →
      Completes (.ldVxK x) s [.pc, .kwActive, .kwSnap] ⟨.awaitingKey, false, none⟩ fun t =>
        t.pc.toNat = (s.pc.toNat + 4094) % 4096 ∧ t.kwActive = true ∧ t.kwSnap = s.keys) ∧
    (s.kwActive = true → s.keys &&& ~~~s.kwSnap = 0 →
      Completes (.ldVxK x) s [.pc, .kwSnap] ⟨.awaitingKey, false, none⟩ fun t =>
        t.pc.toNat = (s.pc.toNat + 4094) % 4096 ∧ t.kwSnap = s.keys) ∧
    (s.kwActive = true → s.keys &&& ~~~s.kwSnap ≠ 0 →
      Completes (.ldVxK x) s [.v, .kwActive, .draws] Outputs.quiet fun t =>
        (∃ k : Nibble, s.keys.getLsbD k.toNat = true ∧ s.kwSnap.getLsbD k.toNat = false ∧
          (t.getV x).toNat = k.toNat) ∧
        t.kwActive = false ∧ t.draws = s.draws + 1 ∧ ∀ r, r ≠ x → t.getV r = s.getV r)

/-! ### Fallback, reset and boot -/

/-- The fallback (46_fallback.md R190): an unrecognized word decodes to it, it emits the word as the diagnostic, and
nothing else changes: PC keeps its provisional value. -/
def Obligations.FallbackOnlyEmitsTheDiagnostic : Prop :=
  ∀ (s : State) (w : Word),
    (unrecognized w = true → decodeWord w = .fallback w) ∧
    Completes (.fallback w) s [] ⟨.running, false, some w⟩ fun _ => True

/-- The reset state (10_state.md R38; the values of KEYS, the latch and the outputs are the spec's decision D22, memory
outside the font D21, the font bytes D6): all zero, the font at 0x000 to 0x04F, PC = 0x200, whatever the parameters. -/
def Obligations.ResetIsAllZeroWithFontAndPc : Prop :=
  ∀ (p : Params) (s : State), s = State.resetWith p →
    (∀ x, s.getV x = 0) ∧ s.i = 0 ∧ s.pc = 0x200 ∧ s.sp = 0 ∧ (∀ k, s.slot k = 0) ∧ s.dt = 0 ∧ s.st = 0 ∧
    (∀ col row, s.pixel col row = false) ∧ s.keys = 0 ∧ s.kwActive = false ∧ s.kwSnap = 0 ∧
    (∀ a (h : a < 80), s.memRead a = p.fontData[a]) ∧ (∀ a, 80 ≤ a → a < 4096 → s.memRead a = 0) ∧
    s.out = ⟨.running, false, none⟩ ∧ s.audioOn = false

/-- The ROM loader (70_reset_and_hazards.md R224): byte `j` of a ROM of at most 3584 bytes is at `0x200 + j` in the launch
state, which is the reset state in everything else. -/
def Obligations.LaunchPlacesTheRomAt0x200 : Prop :=
  ∀ (p : Params) (rom : List Byte), rom.length ≤ 3584 →
    ∃ s, launch p rom = some s ∧ UnchangedExcept [.mem] (State.resetWith p) s ∧
      (∀ j (h : j < rom.length), s.memRead (0x200 + j) = rom[j]) ∧
      ∀ a < 4096, (a < 0x200 ∨ 0x200 + rom.length ≤ a) → s.memRead a = (State.resetWith p).memRead a

/-- A ROM longer than 3584 bytes (70_reset_and_hazards.md R225, the spec's decision D20): no launch state under REJECT; its
first 3584 bytes are loaded under TRUNCATE. -/
def Obligations.OversizeRomIsRejectedOrTruncated : Prop :=
  ∀ (p : Params) (rom : List Byte), 3584 < rom.length →
    (p.romOversize = .reject → launch p rom = none) ∧
    (p.romOversize = .truncate →
      launch p rom = launch p (rom.take 3584) ∧ (launch p rom).isSome = true)
end

