-- ==== Sys2Proof/Laws/Decode.lean ====
section
/-! SUPPORT. The laws of the decoder and the encoder as arithmetic on the number of a word: its fields, its masks, and the
words that nibbles spell. -/

namespace Sys2Proof

/-! ### Words spelled nibble by nibble -/

/-- An appended word as a number. -/
theorem toNat_append_eq {n m : Nat} (a : BitVec n) (b : BitVec m) : (a ++ b).toNat = a.toNat * 2 ^ m + b.toNat := by
  rw [BitVec.toNat_append, Nat.shiftLeft_eq, Nat.mul_comm, Nat.two_pow_add_eq_or_of_lt b.isLt]

/-! ### The fields of a word (30_encoding.md R71) -/

theorem fieldX_toNat (w : Word) : (fieldX w).toNat = w.toNat / 256 % 16 := by
  simp [fieldX, Nat.shiftRight_eq_div_pow]

theorem fieldY_toNat (w : Word) : (fieldY w).toNat = w.toNat / 16 % 16 := by
  simp [fieldY, Nat.shiftRight_eq_div_pow]

theorem fieldN_toNat (w : Word) : (fieldN w).toNat = w.toNat % 16 := by
  simp [fieldN]

theorem fieldKK_toNat (w : Word) : (fieldKK w).toNat = w.toNat % 256 := by
  simp [fieldKK]

theorem fieldNNN_toNat (w : Word) : (fieldNNN w).toNat = w.toNat % 4096 := by
  simp [fieldNNN]

/-! ### The masks of the decoder table (30_encoding.md R72) -/

/-- A word as its four nibbles. -/
theorem word_eq_nibbles (w : Word) : w = w.extractLsb' 12 4 ++ fieldX w ++ fieldY w ++ fieldN w := by
  apply BitVec.eq_of_toNat_eq
  have := w.isLt
  simp only [toNat_append_eq, fieldX_toNat, fieldY_toNat, fieldN_toNat, BitVec.extractLsb'_toNat,
    Nat.shiftRight_eq_div_pow]
  omega

theorem nibble_and_F (a : Nibble) : a &&& 0xF#4 = a := BitVec.and_allOnes

/-- Masking four nibbles is masking each. -/
theorem and_nibbles (a b c d a' b' c' d' : Nibble) :
    (a ++ b ++ c ++ d : Word) &&& (a' ++ b' ++ c' ++ d' : Word) =
      (a &&& a') ++ (b &&& b') ++ (c &&& c') ++ (d &&& d') := by
  simp only [BitVec.and_append]

/-- Rows with mask 0xF000 look at the first nibble. -/
theorem hits_F000 (w f : Word) (make : Word → Instr) (hf : f.toNat % 4096 = 0) :
    Row.hits ⟨0xF000, f, make⟩ w = true ↔ w.toNat / 4096 = f.toNat / 4096 := by
  have e : w &&& 0xF000 = w.extractLsb' 12 4 ++ 0#4 ++ 0#4 ++ 0#4 := by
    conv_lhs => rw [word_eq_nibbles w, show (0xF000 : Word) = 0xF#4 ++ 0#4 ++ 0#4 ++ 0#4 by decide, and_nibbles]
    simp only [nibble_and_F, BitVec.and_zero]
  have := w.isLt
  simp only [Row.hits, e, beq_iff_eq, ← BitVec.toNat_inj, toNat_append_eq, BitVec.extractLsb'_toNat,
    Nat.shiftRight_eq_div_pow, BitVec.toNat_ofNat]
  omega

/-- Rows with mask 0xF00F look at the first and the last nibble. -/
theorem hits_F00F (w f : Word) (make : Word → Instr) (hf : f.toNat % 4096 / 16 = 0) :
    Row.hits ⟨0xF00F, f, make⟩ w = true ↔
      w.toNat / 4096 = f.toNat / 4096 ∧ w.toNat % 16 = f.toNat % 16 := by
  have e : w &&& 0xF00F = w.extractLsb' 12 4 ++ 0#4 ++ 0#4 ++ fieldN w := by
    conv_lhs => rw [word_eq_nibbles w, show (0xF00F : Word) = 0xF#4 ++ 0#4 ++ 0#4 ++ 0xF#4 by decide, and_nibbles]
    simp only [nibble_and_F, BitVec.and_zero]
  have := w.isLt
  simp only [Row.hits, e, beq_iff_eq, ← BitVec.toNat_inj, toNat_append_eq, BitVec.extractLsb'_toNat,
    Nat.shiftRight_eq_div_pow, BitVec.toNat_ofNat, fieldN_toNat]
  omega

/-- Rows with mask 0xF0FF look at the first nibble and the low byte. -/
theorem hits_F0FF (w f : Word) (make : Word → Instr) (hf : f.toNat % 4096 / 256 = 0) :
    Row.hits ⟨0xF0FF, f, make⟩ w = true ↔
      w.toNat / 4096 = f.toNat / 4096 ∧ w.toNat % 256 = f.toNat % 256 := by
  have e : w &&& 0xF0FF = w.extractLsb' 12 4 ++ 0#4 ++ fieldY w ++ fieldN w := by
    conv_lhs => rw [word_eq_nibbles w, show (0xF0FF : Word) = 0xF#4 ++ 0#4 ++ 0xF#4 ++ 0xF#4 by decide, and_nibbles]
    simp only [nibble_and_F, BitVec.and_zero]
  have := w.isLt
  simp only [Row.hits, e, beq_iff_eq, ← BitVec.toNat_inj, toNat_append_eq, BitVec.extractLsb'_toNat,
    Nat.shiftRight_eq_div_pow, BitVec.toNat_ofNat, fieldY_toNat, fieldN_toNat]
  omega

/-- Rows with mask 0xFFFF look at the whole word. -/
theorem hits_FFFF (w f : Word) (make : Word → Instr) :
    Row.hits ⟨0xFFFF, f, make⟩ w = true ↔ w.toNat = f.toNat := by
  have e : w &&& 0xFFFF = w := by
    rw [show (0xFFFF : Word) = BitVec.allOnes 16 by decide, BitVec.and_allOnes]
  simp only [Row.hits, e, beq_iff_eq, ← BitVec.toNat_inj]

/-- The first row of a list that a word hits decides. -/
theorem firstMatch_cons (w : Word) (r : Row) (rs : List Row) :
    firstMatch w (r :: rs) = if r.hits w = true then r.make w else firstMatch w rs := by
  cases h : r.hits w <;> simp [firstMatch, h]

/-- `decodeWord` as a cascade of tests on the number of the word, in the table's order. -/
theorem decodeWord_eq (w : Word) :
    decodeWord w =
      if w.toNat = 0x00E0 then .cls
      else if w.toNat = 0x00EE then .ret
      else if w.toNat / 4096 = 0x1 then .jp (fieldNNN w)
      else if w.toNat / 4096 = 0x2 then .call (fieldNNN w)
      else if w.toNat / 4096 = 0x3 then .seImm (fieldX w) (fieldKK w)
      else if w.toNat / 4096 = 0x4 then .sneImm (fieldX w) (fieldKK w)
      else if w.toNat / 4096 = 0x5 then .seReg (fieldX w) (fieldY w) (fieldN w)
      else if w.toNat / 4096 = 0x6 then .ldImm (fieldX w) (fieldKK w)
      else if w.toNat / 4096 = 0x7 then .addImm (fieldX w) (fieldKK w)
      else if w.toNat / 4096 = 0x8 ∧ w.toNat % 16 = 0x0 then .ldReg (fieldX w) (fieldY w)
      else if w.toNat / 4096 = 0x8 ∧ w.toNat % 16 = 0x1 then .orReg (fieldX w) (fieldY w)
      else if w.toNat / 4096 = 0x8 ∧ w.toNat % 16 = 0x2 then .andReg (fieldX w) (fieldY w)
      else if w.toNat / 4096 = 0x8 ∧ w.toNat % 16 = 0x3 then .xorReg (fieldX w) (fieldY w)
      else if w.toNat / 4096 = 0x8 ∧ w.toNat % 16 = 0x4 then .addReg (fieldX w) (fieldY w)
      else if w.toNat / 4096 = 0x8 ∧ w.toNat % 16 = 0x5 then .subReg (fieldX w) (fieldY w)
      else if w.toNat / 4096 = 0x8 ∧ w.toNat % 16 = 0x6 then .shr (fieldX w) (fieldY w)
      else if w.toNat / 4096 = 0x8 ∧ w.toNat % 16 = 0x7 then .subn (fieldX w) (fieldY w)
      else if w.toNat / 4096 = 0x8 ∧ w.toNat % 16 = 0xE then .shl (fieldX w) (fieldY w)
      else if w.toNat / 4096 = 0x9 then .sneReg (fieldX w) (fieldY w) (fieldN w)
      else if w.toNat / 4096 = 0xA then .ldI (fieldNNN w)
      else if w.toNat / 4096 = 0xB then .jpV0 (fieldNNN w)
      else if w.toNat / 4096 = 0xC then .rnd (fieldX w) (fieldKK w)
      else if w.toNat / 4096 = 0xD then .drw (fieldX w) (fieldY w) (fieldN w)
      else if w.toNat / 4096 = 0xE ∧ w.toNat % 256 = 0x9E then .skp (fieldX w)
      else if w.toNat / 4096 = 0xE ∧ w.toNat % 256 = 0xA1 then .sknp (fieldX w)
      else if w.toNat / 4096 = 0xF ∧ w.toNat % 256 = 0x07 then .ldVxDt (fieldX w)
      else if w.toNat / 4096 = 0xF ∧ w.toNat % 256 = 0x0A then .ldVxK (fieldX w)
      else if w.toNat / 4096 = 0xF ∧ w.toNat % 256 = 0x15 then .ldDtVx (fieldX w)
      else if w.toNat / 4096 = 0xF ∧ w.toNat % 256 = 0x18 then .ldStVx (fieldX w)
      else if w.toNat / 4096 = 0xF ∧ w.toNat % 256 = 0x1E then .addI (fieldX w)
      else if w.toNat / 4096 = 0xF ∧ w.toNat % 256 = 0x29 then .ldF (fieldX w)
      else if w.toNat / 4096 = 0xF ∧ w.toNat % 256 = 0x33 then .ldB (fieldX w)
      else if w.toNat / 4096 = 0xF ∧ w.toNat % 256 = 0x55 then .storeRegs (fieldX w)
      else if w.toNat / 4096 = 0xF ∧ w.toNat % 256 = 0x65 then .loadRegs (fieldX w)
      else .fallback w := by
  simp only [decodeWord, opcodeRows, rows1to9, rows10to18, rows19to25, rows26to34, List.cons_append, List.nil_append,
    firstMatch_cons, hits_FFFF, hits_F000 w 0x1000 _ rfl, hits_F000 w 0x2000 _ rfl, hits_F000 w 0x3000 _ rfl,
    hits_F000 w 0x4000 _ rfl, hits_F000 w 0x5000 _ rfl, hits_F000 w 0x6000 _ rfl, hits_F000 w 0x7000 _ rfl,
    hits_F000 w 0x9000 _ rfl, hits_F000 w 0xA000 _ rfl, hits_F000 w 0xB000 _ rfl, hits_F000 w 0xC000 _ rfl,
    hits_F000 w 0xD000 _ rfl, hits_F00F w 0x8000 _ rfl, hits_F00F w 0x8001 _ rfl, hits_F00F w 0x8002 _ rfl,
    hits_F00F w 0x8003 _ rfl, hits_F00F w 0x8004 _ rfl, hits_F00F w 0x8005 _ rfl, hits_F00F w 0x8006 _ rfl,
    hits_F00F w 0x8007 _ rfl, hits_F00F w 0x800E _ rfl, hits_F0FF w 0xE09E _ rfl, hits_F0FF w 0xE0A1 _ rfl,
    hits_F0FF w 0xF007 _ rfl, hits_F0FF w 0xF00A _ rfl, hits_F0FF w 0xF015 _ rfl, hits_F0FF w 0xF018 _ rfl,
    hits_F0FF w 0xF01E _ rfl, hits_F0FF w 0xF029 _ rfl, hits_F0FF w 0xF033 _ rfl, hits_F0FF w 0xF055 _ rfl,
    hits_F0FF w 0xF065 _ rfl]
  rfl

end Sys2Proof
end

