-- ==== Sys2Proof/Laws/State.lean ====
section
/-! SUPPORT. The small lemmas of the state: what each field and each accessor is after each update. -/

namespace Sys2Proof.Machine

variable (s : State)

/-! ### Accessors after updates -/

/-- A register file of sixteen, read after a write at an index. -/
theorem get_set_nibble {α : Type} (f : Vector α 16) (j k : Nibble) (a : α) :
    (f.set j.toNat a j.isLt).get k.toFin = if k = j then a else f.get k.toFin := by
  simp only [Vector.get_eq_getElem, Vector.getElem_set]
  by_cases h : k = j
  · simp [h]
  · have : j.toNat ≠ k.toNat := fun e => h (BitVec.eq_of_toNat_eq e.symm)
    simp [h, this]

@[simp] theorem getV_setV (x r : Nibble) (b : Byte) :
    (s.setV x b).getV r = if r = x then b else s.getV r := get_set_nibble s.v x r b

@[simp] theorem getV_setFlag (r : Nibble) (f : Bool) :
    (s.setFlag f).getV r = if r = 0xF then flagByte f else s.getV r := getV_setV s _ r _

theorem getV_setResultFlag (x r : Nibble) (b : Byte) (f : Bool) :
    (s.setResultFlag x b f).getV r = if r = 0xF then flagByte f else if r = x then b else s.getV r := by
  simp [State.setResultFlag]

@[simp] theorem slot_push (k : Nibble) (a : Word) :
    (s.push a).slot k = if k = s.sp + 1 then a else s.slot k := get_set_nibble s.stack (s.sp + 1) k a

/-- An update that leaves `v` alone leaves every register alone. -/
theorem getV_congr {s t : State} (h : t.v = s.v) (r : Nibble) : t.getV r = s.getV r := by
  simp [State.getV, h]

/-- An update that leaves `stack` alone leaves every slot alone. -/
theorem slot_congr {s t : State} (h : t.stack = s.stack) (k : Nibble) : t.slot k = s.slot k := by
  simp [State.slot, h]

/-- An update that leaves `fb` alone leaves every pixel alone. -/
theorem pixel_congr {s t : State} (h : t.fb = s.fb) (c : Fin 64) (r : Fin 32) : t.pixel c r = s.pixel c r := by
  simp [State.pixel, h]

/-- An update that leaves `mem` and the parameters alone leaves every byte alone. -/
theorem memRead_congr {s t : State} (h : t.mem = s.mem) (hc : t.cfg = s.cfg) (a : Nat) :
    t.memRead a = s.memRead a := by
  simp [State.memRead, h, hc]

/-- A skip changes PC and nothing else. -/
theorem skipIf_eq (c : Bool) :
    s.skipIf c = { s with pc := if c then (s.pc + 2) &&& 0xFFF else s.pc } := by
  cases c <;> rfl

/-- The index update of Fx55 and Fx65 changes I and nothing else. -/
theorem indexUpdate_eq (x : Nibble) :
    s.indexUpdate x =
      { s with i := if s.cfg.loadStoreI = .increment then s.i + x.setWidth 16 + 1 else s.i } := by
  unfold State.indexUpdate
  split <;> rename_i h <;> simp [h, State.setI]

/-! ### Fields after updates -/

@[simp] theorem setV_i (x : Nibble) (b : Byte) : (s.setV x b).i = s.i := rfl
@[simp] theorem setV_pc (x : Nibble) (b : Byte) : (s.setV x b).pc = s.pc := rfl
@[simp] theorem setV_sp (x : Nibble) (b : Byte) : (s.setV x b).sp = s.sp := rfl
@[simp] theorem setV_stack (x : Nibble) (b : Byte) : (s.setV x b).stack = s.stack := rfl
@[simp] theorem setV_dt (x : Nibble) (b : Byte) : (s.setV x b).dt = s.dt := rfl
@[simp] theorem setV_st (x : Nibble) (b : Byte) : (s.setV x b).st = s.st := rfl
@[simp] theorem setV_fb (x : Nibble) (b : Byte) : (s.setV x b).fb = s.fb := rfl
@[simp] theorem setV_keys (x : Nibble) (b : Byte) : (s.setV x b).keys = s.keys := rfl
@[simp] theorem setV_kwActive (x : Nibble) (b : Byte) : (s.setV x b).kwActive = s.kwActive := rfl
@[simp] theorem setV_kwSnap (x : Nibble) (b : Byte) : (s.setV x b).kwSnap = s.kwSnap := rfl
@[simp] theorem setV_mem (x : Nibble) (b : Byte) : (s.setV x b).mem = s.mem := rfl
@[simp] theorem setV_out (x : Nibble) (b : Byte) : (s.setV x b).out = s.out := rfl
@[simp] theorem setV_cfg (x : Nibble) (b : Byte) : (s.setV x b).cfg = s.cfg := rfl
@[simp] theorem setV_events (x : Nibble) (b : Byte) : (s.setV x b).events = s.events := rfl
@[simp] theorem setV_draws (x : Nibble) (b : Byte) : (s.setV x b).draws = s.draws := rfl

@[simp] theorem setI_v (a : Word) : (s.setI a).v = s.v := rfl
@[simp] theorem setI_i (a : Word) : (s.setI a).i = a := rfl
@[simp] theorem setI_pc (a : Word) : (s.setI a).pc = s.pc := rfl
@[simp] theorem setI_sp (a : Word) : (s.setI a).sp = s.sp := rfl
@[simp] theorem setI_stack (a : Word) : (s.setI a).stack = s.stack := rfl
@[simp] theorem setI_dt (a : Word) : (s.setI a).dt = s.dt := rfl
@[simp] theorem setI_st (a : Word) : (s.setI a).st = s.st := rfl
@[simp] theorem setI_fb (a : Word) : (s.setI a).fb = s.fb := rfl
@[simp] theorem setI_keys (a : Word) : (s.setI a).keys = s.keys := rfl
@[simp] theorem setI_kwActive (a : Word) : (s.setI a).kwActive = s.kwActive := rfl
@[simp] theorem setI_kwSnap (a : Word) : (s.setI a).kwSnap = s.kwSnap := rfl
@[simp] theorem setI_mem (a : Word) : (s.setI a).mem = s.mem := rfl
@[simp] theorem setI_out (a : Word) : (s.setI a).out = s.out := rfl
@[simp] theorem setI_cfg (a : Word) : (s.setI a).cfg = s.cfg := rfl
@[simp] theorem setI_events (a : Word) : (s.setI a).events = s.events := rfl
@[simp] theorem setI_draws (a : Word) : (s.setI a).draws = s.draws := rfl

@[simp] theorem setPc_v (a : Word) : (s.setPc a).v = s.v := rfl
@[simp] theorem setPc_i (a : Word) : (s.setPc a).i = s.i := rfl
@[simp] theorem setPc_pc (a : Word) : (s.setPc a).pc = a &&& 0xFFF := rfl
@[simp] theorem setPc_sp (a : Word) : (s.setPc a).sp = s.sp := rfl
@[simp] theorem setPc_stack (a : Word) : (s.setPc a).stack = s.stack := rfl
@[simp] theorem setPc_dt (a : Word) : (s.setPc a).dt = s.dt := rfl
@[simp] theorem setPc_st (a : Word) : (s.setPc a).st = s.st := rfl
@[simp] theorem setPc_fb (a : Word) : (s.setPc a).fb = s.fb := rfl
@[simp] theorem setPc_keys (a : Word) : (s.setPc a).keys = s.keys := rfl
@[simp] theorem setPc_kwActive (a : Word) : (s.setPc a).kwActive = s.kwActive := rfl
@[simp] theorem setPc_kwSnap (a : Word) : (s.setPc a).kwSnap = s.kwSnap := rfl
@[simp] theorem setPc_mem (a : Word) : (s.setPc a).mem = s.mem := rfl
@[simp] theorem setPc_out (a : Word) : (s.setPc a).out = s.out := rfl
@[simp] theorem setPc_cfg (a : Word) : (s.setPc a).cfg = s.cfg := rfl
@[simp] theorem setPc_events (a : Word) : (s.setPc a).events = s.events := rfl
@[simp] theorem setPc_draws (a : Word) : (s.setPc a).draws = s.draws := rfl

@[simp] theorem push_v (a : Word) : (s.push a).v = s.v := rfl
@[simp] theorem push_i (a : Word) : (s.push a).i = s.i := rfl
@[simp] theorem push_pc (a : Word) : (s.push a).pc = s.pc := rfl
@[simp] theorem push_sp (a : Word) : (s.push a).sp = s.sp + 1 := rfl
@[simp] theorem push_dt (a : Word) : (s.push a).dt = s.dt := rfl
@[simp] theorem push_st (a : Word) : (s.push a).st = s.st := rfl
@[simp] theorem push_fb (a : Word) : (s.push a).fb = s.fb := rfl
@[simp] theorem push_keys (a : Word) : (s.push a).keys = s.keys := rfl
@[simp] theorem push_kwActive (a : Word) : (s.push a).kwActive = s.kwActive := rfl
@[simp] theorem push_kwSnap (a : Word) : (s.push a).kwSnap = s.kwSnap := rfl
@[simp] theorem push_mem (a : Word) : (s.push a).mem = s.mem := rfl
@[simp] theorem push_out (a : Word) : (s.push a).out = s.out := rfl
@[simp] theorem push_cfg (a : Word) : (s.push a).cfg = s.cfg := rfl
@[simp] theorem push_events (a : Word) : (s.push a).events = s.events := rfl
@[simp] theorem push_draws (a : Word) : (s.push a).draws = s.draws := rfl

@[simp] theorem pop_v : s.pop.v = s.v := rfl
@[simp] theorem pop_i : s.pop.i = s.i := rfl
@[simp] theorem pop_pc : s.pop.pc = s.pc := rfl
@[simp] theorem pop_sp : s.pop.sp = s.sp - 1 := rfl
@[simp] theorem pop_stack : s.pop.stack = s.stack := rfl
@[simp] theorem pop_dt : s.pop.dt = s.dt := rfl
@[simp] theorem pop_st : s.pop.st = s.st := rfl
@[simp] theorem pop_fb : s.pop.fb = s.fb := rfl
@[simp] theorem pop_keys : s.pop.keys = s.keys := rfl
@[simp] theorem pop_kwActive : s.pop.kwActive = s.kwActive := rfl
@[simp] theorem pop_kwSnap : s.pop.kwSnap = s.kwSnap := rfl
@[simp] theorem pop_mem : s.pop.mem = s.mem := rfl
@[simp] theorem pop_out : s.pop.out = s.out := rfl
@[simp] theorem pop_cfg : s.pop.cfg = s.cfg := rfl
@[simp] theorem pop_events : s.pop.events = s.events := rfl
@[simp] theorem pop_draws : s.pop.draws = s.draws := rfl

@[simp] theorem drawn_v : s.drawn.v = s.v := rfl
@[simp] theorem drawn_i : s.drawn.i = s.i := rfl
@[simp] theorem drawn_pc : s.drawn.pc = s.pc := rfl
@[simp] theorem drawn_sp : s.drawn.sp = s.sp := rfl
@[simp] theorem drawn_stack : s.drawn.stack = s.stack := rfl
@[simp] theorem drawn_dt : s.drawn.dt = s.dt := rfl
@[simp] theorem drawn_st : s.drawn.st = s.st := rfl
@[simp] theorem drawn_fb : s.drawn.fb = s.fb := rfl
@[simp] theorem drawn_keys : s.drawn.keys = s.keys := rfl
@[simp] theorem drawn_kwActive : s.drawn.kwActive = s.kwActive := rfl
@[simp] theorem drawn_kwSnap : s.drawn.kwSnap = s.kwSnap := rfl
@[simp] theorem drawn_mem : s.drawn.mem = s.mem := rfl
@[simp] theorem drawn_out : s.drawn.out = s.out := rfl
@[simp] theorem drawn_cfg : s.drawn.cfg = s.cfg := rfl
@[simp] theorem drawn_events : s.drawn.events = s.events := rfl
@[simp] theorem drawn_draws : s.drawn.draws = s.draws + 1 := rfl

@[simp] theorem clearScreen_v : s.clearScreen.v = s.v := rfl
@[simp] theorem clearScreen_i : s.clearScreen.i = s.i := rfl
@[simp] theorem clearScreen_pc : s.clearScreen.pc = s.pc := rfl
@[simp] theorem clearScreen_sp : s.clearScreen.sp = s.sp := rfl
@[simp] theorem clearScreen_stack : s.clearScreen.stack = s.stack := rfl
@[simp] theorem clearScreen_dt : s.clearScreen.dt = s.dt := rfl
@[simp] theorem clearScreen_st : s.clearScreen.st = s.st := rfl
@[simp] theorem clearScreen_fb : s.clearScreen.fb = Vector.replicate 32 0 := rfl
@[simp] theorem clearScreen_keys : s.clearScreen.keys = s.keys := rfl
@[simp] theorem clearScreen_kwActive : s.clearScreen.kwActive = s.kwActive := rfl
@[simp] theorem clearScreen_kwSnap : s.clearScreen.kwSnap = s.kwSnap := rfl
@[simp] theorem clearScreen_mem : s.clearScreen.mem = s.mem := rfl
@[simp] theorem clearScreen_out : s.clearScreen.out = s.out := rfl
@[simp] theorem clearScreen_cfg : s.clearScreen.cfg = s.cfg := rfl
@[simp] theorem clearScreen_events : s.clearScreen.events = s.events := rfl
@[simp] theorem clearScreen_draws : s.clearScreen.draws = s.draws := rfl

@[simp] theorem setFlag_i (f : Bool) : (s.setFlag f).i = s.i := rfl
@[simp] theorem setFlag_pc (f : Bool) : (s.setFlag f).pc = s.pc := rfl
@[simp] theorem setFlag_sp (f : Bool) : (s.setFlag f).sp = s.sp := rfl
@[simp] theorem setFlag_stack (f : Bool) : (s.setFlag f).stack = s.stack := rfl
@[simp] theorem setFlag_dt (f : Bool) : (s.setFlag f).dt = s.dt := rfl
@[simp] theorem setFlag_st (f : Bool) : (s.setFlag f).st = s.st := rfl
@[simp] theorem setFlag_fb (f : Bool) : (s.setFlag f).fb = s.fb := rfl
@[simp] theorem setFlag_keys (f : Bool) : (s.setFlag f).keys = s.keys := rfl
@[simp] theorem setFlag_kwActive (f : Bool) : (s.setFlag f).kwActive = s.kwActive := rfl
@[simp] theorem setFlag_kwSnap (f : Bool) : (s.setFlag f).kwSnap = s.kwSnap := rfl
@[simp] theorem setFlag_mem (f : Bool) : (s.setFlag f).mem = s.mem := rfl
@[simp] theorem setFlag_out (f : Bool) : (s.setFlag f).out = s.out := rfl
@[simp] theorem setFlag_cfg (f : Bool) : (s.setFlag f).cfg = s.cfg := rfl
@[simp] theorem setFlag_events (f : Bool) : (s.setFlag f).events = s.events := rfl
@[simp] theorem setFlag_draws (f : Bool) : (s.setFlag f).draws = s.draws := rfl

@[simp] theorem setResultFlag_i (x : Nibble) (b : Byte) (f : Bool) : (s.setResultFlag x b f).i = s.i := rfl
@[simp] theorem setResultFlag_pc (x : Nibble) (b : Byte) (f : Bool) : (s.setResultFlag x b f).pc = s.pc := rfl
@[simp] theorem setResultFlag_sp (x : Nibble) (b : Byte) (f : Bool) : (s.setResultFlag x b f).sp = s.sp := rfl
@[simp] theorem setResultFlag_stack (x : Nibble) (b : Byte) (f : Bool) : (s.setResultFlag x b f).stack = s.stack := rfl
@[simp] theorem setResultFlag_dt (x : Nibble) (b : Byte) (f : Bool) : (s.setResultFlag x b f).dt = s.dt := rfl
@[simp] theorem setResultFlag_st (x : Nibble) (b : Byte) (f : Bool) : (s.setResultFlag x b f).st = s.st := rfl
@[simp] theorem setResultFlag_fb (x : Nibble) (b : Byte) (f : Bool) : (s.setResultFlag x b f).fb = s.fb := rfl
@[simp] theorem setResultFlag_keys (x : Nibble) (b : Byte) (f : Bool) : (s.setResultFlag x b f).keys = s.keys := rfl
@[simp] theorem setResultFlag_kwActive (x : Nibble) (b : Byte) (f : Bool) : (s.setResultFlag x b f).kwActive = s.kwActive := rfl
@[simp] theorem setResultFlag_kwSnap (x : Nibble) (b : Byte) (f : Bool) : (s.setResultFlag x b f).kwSnap = s.kwSnap := rfl
@[simp] theorem setResultFlag_mem (x : Nibble) (b : Byte) (f : Bool) : (s.setResultFlag x b f).mem = s.mem := rfl
@[simp] theorem setResultFlag_out (x : Nibble) (b : Byte) (f : Bool) : (s.setResultFlag x b f).out = s.out := rfl
@[simp] theorem setResultFlag_cfg (x : Nibble) (b : Byte) (f : Bool) : (s.setResultFlag x b f).cfg = s.cfg := rfl
@[simp] theorem setResultFlag_events (x : Nibble) (b : Byte) (f : Bool) : (s.setResultFlag x b f).events = s.events := rfl
@[simp] theorem setResultFlag_draws (x : Nibble) (b : Byte) (f : Bool) : (s.setResultFlag x b f).draws = s.draws := rfl

@[simp] theorem advance_v : s.advance.v = s.v := rfl
@[simp] theorem advance_i : s.advance.i = s.i := rfl
@[simp] theorem advance_pc : s.advance.pc = (s.pc + 2) &&& 0xFFF := rfl
@[simp] theorem advance_sp : s.advance.sp = s.sp := rfl
@[simp] theorem advance_stack : s.advance.stack = s.stack := rfl
@[simp] theorem advance_dt : s.advance.dt = s.dt := rfl
@[simp] theorem advance_st : s.advance.st = s.st := rfl
@[simp] theorem advance_fb : s.advance.fb = s.fb := rfl
@[simp] theorem advance_keys : s.advance.keys = s.keys := rfl
@[simp] theorem advance_kwActive : s.advance.kwActive = s.kwActive := rfl
@[simp] theorem advance_kwSnap : s.advance.kwSnap = s.kwSnap := rfl
@[simp] theorem advance_mem : s.advance.mem = s.mem := rfl
@[simp] theorem advance_out : s.advance.out = s.out := rfl
@[simp] theorem advance_cfg : s.advance.cfg = s.cfg := rfl
@[simp] theorem advance_events : s.advance.events = s.events := rfl
@[simp] theorem advance_draws : s.advance.draws = s.draws := rfl

@[simp] theorem tick_v : s.tick.v = s.v := rfl
@[simp] theorem tick_i : s.tick.i = s.i := rfl
@[simp] theorem tick_pc : s.tick.pc = s.pc := rfl
@[simp] theorem tick_sp : s.tick.sp = s.sp := rfl
@[simp] theorem tick_stack : s.tick.stack = s.stack := rfl
@[simp] theorem tick_dt : s.tick.dt = countDown s.dt := rfl
@[simp] theorem tick_st : s.tick.st = countDown s.st := rfl
@[simp] theorem tick_fb : s.tick.fb = s.fb := rfl
@[simp] theorem tick_keys : s.tick.keys = s.keys := rfl
@[simp] theorem tick_kwActive : s.tick.kwActive = s.kwActive := rfl
@[simp] theorem tick_kwSnap : s.tick.kwSnap = s.kwSnap := rfl
@[simp] theorem tick_mem : s.tick.mem = s.mem := rfl
@[simp] theorem tick_out : s.tick.out = s.out := rfl
@[simp] theorem tick_cfg : s.tick.cfg = s.cfg := rfl
@[simp] theorem tick_events : s.tick.events = s.events := rfl
@[simp] theorem tick_draws : s.tick.draws = s.draws := rfl

@[simp] theorem keysIn_v (k : Word) : (s.keysIn k).v = s.v := rfl
@[simp] theorem keysIn_i (k : Word) : (s.keysIn k).i = s.i := rfl
@[simp] theorem keysIn_pc (k : Word) : (s.keysIn k).pc = s.pc := rfl
@[simp] theorem keysIn_sp (k : Word) : (s.keysIn k).sp = s.sp := rfl
@[simp] theorem keysIn_stack (k : Word) : (s.keysIn k).stack = s.stack := rfl
@[simp] theorem keysIn_dt (k : Word) : (s.keysIn k).dt = s.dt := rfl
@[simp] theorem keysIn_st (k : Word) : (s.keysIn k).st = s.st := rfl
@[simp] theorem keysIn_fb (k : Word) : (s.keysIn k).fb = s.fb := rfl
@[simp] theorem keysIn_keys (k : Word) : (s.keysIn k).keys = k := rfl
@[simp] theorem keysIn_kwActive (k : Word) : (s.keysIn k).kwActive = s.kwActive := rfl
@[simp] theorem keysIn_kwSnap (k : Word) : (s.keysIn k).kwSnap = s.kwSnap := rfl
@[simp] theorem keysIn_mem (k : Word) : (s.keysIn k).mem = s.mem := rfl
@[simp] theorem keysIn_out (k : Word) : (s.keysIn k).out = s.out := rfl
@[simp] theorem keysIn_cfg (k : Word) : (s.keysIn k).cfg = s.cfg := rfl
@[simp] theorem keysIn_events (k : Word) : (s.keysIn k).events = s.events := rfl
@[simp] theorem keysIn_draws (k : Word) : (s.keysIn k).draws = s.draws := rfl

@[simp] theorem eventTaken_v : s.eventTaken.v = s.v := rfl
@[simp] theorem eventTaken_i : s.eventTaken.i = s.i := rfl
@[simp] theorem eventTaken_pc : s.eventTaken.pc = s.pc := rfl
@[simp] theorem eventTaken_sp : s.eventTaken.sp = s.sp := rfl
@[simp] theorem eventTaken_stack : s.eventTaken.stack = s.stack := rfl
@[simp] theorem eventTaken_dt : s.eventTaken.dt = s.dt := rfl
@[simp] theorem eventTaken_st : s.eventTaken.st = s.st := rfl
@[simp] theorem eventTaken_fb : s.eventTaken.fb = s.fb := rfl
@[simp] theorem eventTaken_keys : s.eventTaken.keys = s.keys := rfl
@[simp] theorem eventTaken_kwActive : s.eventTaken.kwActive = s.kwActive := rfl
@[simp] theorem eventTaken_kwSnap : s.eventTaken.kwSnap = s.kwSnap := rfl
@[simp] theorem eventTaken_mem : s.eventTaken.mem = s.mem := rfl
@[simp] theorem eventTaken_out : s.eventTaken.out = s.out := rfl
@[simp] theorem eventTaken_cfg : s.eventTaken.cfg = s.cfg := rfl
@[simp] theorem eventTaken_events : s.eventTaken.events = s.events.next.2 := rfl
@[simp] theorem eventTaken_draws : s.eventTaken.draws = s.draws := rfl

end Sys2Proof.Machine
end

