-- ==== Sys2Proof/Laws/Display.lean ====
section
/-! SUPPORT. The laws of the framebuffer write port: what a flip, a sprite row and a whole blit do to each pixel and to the
collision flag. -/

namespace Sys2Proof.Machine

@[simp] theorem pixel_clearScreen (s : State) (c : Fin 64) (r : Fin 32) : s.clearScreen.pixel c r = false := by
  simp [State.pixel, State.clearScreen, pixelOf, Vector.get_eq_getElem]

/-- A flip inverts its own pixel and keeps every other. -/
theorem pixelOf_flipPixel (fb : Pixels) (c c' : Fin 64) (r r' : Fin 32) :
    pixelOf (flipPixel fb c r) c' r' = (pixelOf fb c' r' ^^ decide (c' = c ∧ r' = r)) := by
  simp only [pixelOf, flipPixel, Vector.get_eq_getElem, Vector.getElem_set]
  by_cases hr : r' = r
  · subst hr
    simp [Fin.ext_iff]
  · have : r.val ≠ r'.val := fun e => hr (Fin.ext e.symm)
    simp [hr, this]

/-- Two of a sprite row's eight columns never fall on one screen column (44_display.md R164). -/
theorem screenCol_inj {cx k k' : Nat} (hk : k < 8) (hk' : k' < 8) (h : screenCol cx k = screenCol cx k') : k = k' := by
  have : (cx + k) % 64 = (cx + k') % 64 := congrArg Fin.val h
  omega

/-- Two of a sprite's rows never fall on one screen row (44_display.md R164). -/
theorem screenRow_inj {cy k k' : Nat} (hk : k < 32) (hk' : k' < 32) (h : screenRow cy k = screenRow cy k') :
    k = k' := by
  have : (cy + k) % 32 = (cy + k') % 32 := congrArg Fin.val h
  omega

/-- A 1 bit among the first `n` columns of sprite byte `b` falls on the screen column `c`. -/
def RowCovers (b : Byte) (cx n : Nat) (c : Fin 64) : Prop :=
  ∃ k < n, b.getLsbD (7 - k) = true ∧ screenCol cx k = c

theorem rowCovers_succ (b : Byte) (cx n : Nat) (c : Fin 64) :
    RowCovers b cx (n + 1) c ↔ RowCovers b cx n c ∨ (b.getLsbD (7 - n) = true ∧ screenCol cx n = c) := by
  constructor
  · rintro ⟨k, hk, hb, hc⟩
    rcases Nat.lt_succ_iff_lt_or_eq.mp hk with h | h
    · exact .inl ⟨k, h, hb, hc⟩
    · subst h
      exact .inr ⟨hb, hc⟩
  · rintro (⟨k, hk, hb, hc⟩ | ⟨hb, hc⟩)
    · exact ⟨k, Nat.lt_succ_of_lt hk, hb, hc⟩
    · exact ⟨n, Nat.lt_succ_self n, hb, hc⟩

/-- What the columns of one sprite row do: each covered pixel of the row is inverted, every other pixel is kept, and the
collision flag is raised when a covered pixel was set. -/
theorem blitColumns_spec (b : Byte) (cx cy row : Nat) (a : Blit) (n : Nat) (hn : n ≤ 8) :
    (∀ c r, (r = screenRow cy row ∧ RowCovers b cx n c) →
      pixelOf (blitColumns b cx cy row a n).fb c r = !pixelOf a.fb c r) ∧
    (∀ c r, ¬(r = screenRow cy row ∧ RowCovers b cx n c) →
      pixelOf (blitColumns b cx cy row a n).fb c r = pixelOf a.fb c r) ∧
    ((blitColumns b cx cy row a n).collision = true ↔
      a.collision = true ∨ ∃ c, RowCovers b cx n c ∧ pixelOf a.fb c (screenRow cy row) = true) := by
  induction n with
  | zero => simp [blitColumns, RowCovers]
  | succ n ih =>
    obtain ⟨ih1, ih2, ih3⟩ := ih (by omega)
    have fresh : ¬RowCovers b cx n (screenCol cx n) := by
      rintro ⟨k, hk, -, hc⟩
      exact absurd (screenCol_inj (by omega) (by omega) hc) (by omega)
    simp only [blitColumns]
    by_cases hb : b.getLsbD (7 - n) = true
    · simp only [hb, if_true, blitBit, pixelOf_flipPixel, rowCovers_succ, true_and]
      refine ⟨?_, ?_, ?_⟩
      · rintro c r ⟨rfl, h⟩
        by_cases hc : c = screenCol cx n
        · subst hc
          simp [ih2 _ _ (fun h => fresh h.2)]
        · have h' : RowCovers b cx n c := h.resolve_right fun e => hc e.symm
          simp [hc, ih1 _ _ ⟨rfl, h'⟩]
      · rintro c r h
        have h1 : ¬(r = screenRow cy row ∧ RowCovers b cx n c) := fun e => h ⟨e.1, .inl e.2⟩
        have h2 : ¬(c = screenCol cx n ∧ r = screenRow cy row) := fun e => h ⟨e.2, .inr e.1.symm⟩
        simp [h2, ih2 _ _ h1]
      · rw [Bool.or_eq_true, ih3, ih2 _ _ (fun h => fresh h.2)]
        constructor
        · rintro ((h | ⟨c, h, hp⟩) | h)
          · exact .inl h
          · exact .inr ⟨c, .inl h, hp⟩
          · exact .inr ⟨_, .inr rfl, h⟩
        · rintro (h | ⟨c, h | rfl, hp⟩)
          · exact .inl (.inl h)
          · exact .inl (.inr ⟨c, h, hp⟩)
          · exact .inr hp
    · simp only [hb, if_false, rowCovers_succ, false_and, or_false, Bool.false_eq_true]
      exact ⟨ih1, ih2, ih3⟩

/-- A sprite's cover, in the words of the blit: row `k` of the sprite covers the pixel. -/
theorem spriteCovers_iff (s : State) (cx cy n : Nat) (c : Fin 64) (r : Fin 32) :
    SpriteCovers s cx cy n c r ↔
      ∃ k < n, r = screenRow cy k ∧ RowCovers (s.memRead (s.i.toNat + k)) cx 8 c := by
  have hc : ∀ j, (cx + j) % 64 = c.val ↔ screenCol cx j = c := fun j => (Fin.ext_iff (a := screenCol cx j) (b := c)).symm
  have hr : ∀ j, (cy + j) % 32 = r.val ↔ r = screenRow cy j := fun j =>
    (Fin.ext_iff (a := screenRow cy j) (b := r)).symm.trans eq_comm
  constructor
  · rintro ⟨k, hk, j, hj, hb, h1, h2⟩
    exact ⟨k, hk, (hr k).mp h2, j, hj, hb, (hc j).mp h1⟩
  · rintro ⟨k, hk, h2, j, hj, hb, h1⟩
    exact ⟨k, hk, j, hj, hb, (hc j).mpr h1, (hr k).mpr h2⟩

/-- What a blit of `n` rows does (44_display.md R162): each pixel under a 1 bit of the sprite is inverted, every other pixel
is kept, and the collision flag is raised exactly when one of them was set. -/
theorem blitRows_spec (s : State) (cx cy n : Nat) (hn : n ≤ 32) :
    (∀ c r, SpriteCovers s cx cy n c r → pixelOf (s.blitRows cx cy n).fb c r = !s.pixel c r) ∧
    (∀ c r, ¬SpriteCovers s cx cy n c r → pixelOf (s.blitRows cx cy n).fb c r = s.pixel c r) ∧
    ((s.blitRows cx cy n).collision = true ↔
      ∃ c r, SpriteCovers s cx cy n c r ∧ s.pixel c r = true) := by
  simp only [spriteCovers_iff]
  induction n with
  | zero => simp [State.blitRows, State.pixel]
  | succ n ih =>
    obtain ⟨ih1, ih2, ih3⟩ := ih (by omega)
    have fresh : ∀ c, ¬∃ k < n, screenRow cy n = screenRow cy k ∧
        RowCovers (s.memRead (s.i.toNat + k)) cx 8 c := by
      rintro c ⟨k, hk, hr, -⟩
      exact absurd (screenRow_inj (by omega) (by omega) hr) (by omega)
    have succ : ∀ (c : Fin 64) (r : Fin 32),
        (∃ k < n + 1, r = screenRow cy k ∧ RowCovers (s.memRead (s.i.toNat + k)) cx 8 c) ↔
        (∃ k < n, r = screenRow cy k ∧ RowCovers (s.memRead (s.i.toNat + k)) cx 8 c) ∨
          (r = screenRow cy n ∧ RowCovers (s.memRead (s.i.toNat + n)) cx 8 c) := by
      intro c r
      constructor
      · rintro ⟨k, hk, h⟩
        rcases Nat.lt_succ_iff_lt_or_eq.mp hk with h' | h'
        · exact .inl ⟨k, h', h⟩
        · subst h'
          exact .inr h
      · rintro (⟨k, hk, h⟩ | h)
        · exact ⟨k, Nat.lt_succ_of_lt hk, h⟩
        · exact ⟨n, Nat.lt_succ_self n, h⟩
    obtain ⟨b1, b2, b3⟩ :=
      blitColumns_spec (s.memRead (s.i.toNat + n)) cx cy n (s.blitRows cx cy n) 8 (Nat.le_refl 8)
    simp only [State.blitRows, succ]
    refine ⟨?_, ?_, ?_⟩
    · rintro c r h
      by_cases hr : r = screenRow cy n ∧ RowCovers (s.memRead (s.i.toNat + n)) cx 8 c
      · rw [b1 c r hr, ih2 c r]
        rw [hr.1]
        exact fresh c
      · rw [b2 c r hr, ih1 c r (h.resolve_right hr)]
    · rintro c r h
      rw [b2 c r fun e => h (.inr e), ih2 c r fun e => h (.inl e)]
    · rw [b3, ih3]
      constructor
      · rintro (⟨c, r, h, hp⟩ | ⟨c, h, hp⟩)
        · exact ⟨c, r, .inl h, hp⟩
        · rw [ih2 _ _ (fresh c)] at hp
          exact ⟨c, _, .inr ⟨rfl, h⟩, hp⟩
      · rintro ⟨c, r, h | ⟨rfl, h⟩, hp⟩
        · exact .inl ⟨c, r, h, hp⟩
        · refine .inr ⟨c, h, ?_⟩
          rw [ih2 _ _ (fresh c)]
          exact hp

end Sys2Proof.Machine
end

