-- ==== Sys2Proof/Laws/Memory.lean ====
section
/-! SUPPORT. The laws of memory: a read after a write, what a write leaves alone, and that every operation keeps the
canonical form. -/

namespace Sys2Proof.Machine

variable {font : Vector Byte 80}

/-! ### The list of cells -/

theorem wfFrom_mono {lo lo' : Nat} {m : Memory} (h : Memory.wfFrom font lo m = true) (hl : lo' ≤ lo) :
    Memory.wfFrom font lo' m = true := by
  cases m with
  | nil => rfl
  | cons c m =>
    obtain ⟨k, b⟩ := c
    simp only [Memory.wfFrom, Bool.and_eq_true, decide_eq_true_eq] at h ⊢
    exact ⟨⟨⟨by omega, h.1.1.2⟩, h.1.2⟩, h.2⟩

/-- Listing `b` at `a`: found at `a`, and nowhere else is anything changed. -/
theorem find_insert (m : Memory) (a c : Nat) (b : Byte) :
    Memory.find (Memory.insert a b m) c = if c = a then some b else Memory.find m c := by
  induction m with
  | nil => simp [Memory.insert, Memory.find, eq_comm]
  | cons e m ih =>
    obtain ⟨k, d⟩ := e
    simp only [Memory.insert]
    split
    · simp [Memory.find, eq_comm]
    split
    · rename_i hk
      subst hk
      by_cases hc : c = a
      · simp [Memory.find, hc]
      · have : ¬a = c := fun e => hc e.symm
        simp [Memory.find, hc, this]
    · by_cases hc : k = c
      · have : ¬c = a := by omega
        simp [Memory.find, hc, this]
      · simp [Memory.find, hc, ih]

/-- Taking `a` off the list: not found there, and nowhere else is anything changed. -/
theorem find_erase (m : Memory) (a c : Nat) :
    Memory.find (Memory.erase a m) c = if c = a then none else Memory.find m c := by
  induction m with
  | nil => simp [Memory.erase, Memory.find]
  | cons e m ih =>
    obtain ⟨k, d⟩ := e
    simp only [Memory.erase]
    by_cases hk : k = a
    · subst hk
      by_cases hc : c = k
      · subst hc
        simp [ih]
      · have : ¬k = c := fun e => hc e.symm
        simp [Memory.find, hc, this, ih]
    · by_cases hc : k = c
      · have : ¬c = a := by omega
        simp [Memory.find, hc, this]
      · simp [hk, Memory.find, hc, ih]

theorem wfFrom_insert {lo a : Nat} {b : Byte} {m : Memory} (h : Memory.wfFrom font lo m = true) (hlo : lo ≤ a)
    (ha : a < 4096) (hb : b ≠ resetByte font a) : Memory.wfFrom font lo (Memory.insert a b m) = true := by
  induction m generalizing lo with
  | nil => simp [Memory.insert, Memory.wfFrom, hlo, ha, hb]
  | cons e m ih =>
    obtain ⟨k, d⟩ := e
    simp only [Memory.wfFrom, Bool.and_eq_true, decide_eq_true_eq] at h
    simp only [Memory.insert]
    split
    · simp only [Memory.wfFrom, Bool.and_eq_true, decide_eq_true_eq]
      exact ⟨⟨⟨hlo, ha⟩, by simpa using hb⟩, ⟨⟨by omega, h.1.1.2⟩, h.1.2⟩, h.2⟩
    split
    · rename_i hk
      subst hk
      simp only [Memory.wfFrom, Bool.and_eq_true, decide_eq_true_eq]
      exact ⟨⟨⟨hlo, ha⟩, by simpa using hb⟩, h.2⟩
    · simp only [Memory.wfFrom, Bool.and_eq_true, decide_eq_true_eq]
      exact ⟨h.1, ih h.2 (by omega)⟩

theorem wfFrom_erase {lo a : Nat} {m : Memory} (h : Memory.wfFrom font lo m = true) :
    Memory.wfFrom font lo (Memory.erase a m) = true := by
  induction m generalizing lo with
  | nil => rfl
  | cons e m ih =>
    obtain ⟨k, d⟩ := e
    simp only [Memory.wfFrom, Bool.and_eq_true, decide_eq_true_eq] at h
    simp only [Memory.erase]
    split
    · exact wfFrom_mono (ih h.2) (by omega)
    · simp only [Memory.wfFrom, Bool.and_eq_true, decide_eq_true_eq]
      exact ⟨h.1, ih h.2⟩

/-! ### Reading and writing one byte -/

/-- A write keeps the canonical form. -/
theorem write_wf {m : Memory} {a : Nat} {b : Byte} (h : Memory.wf font m = true) (ha : a < 4096) :
    Memory.wf font (Memory.write font a b m) = true := by
  unfold Memory.write
  split
  · exact wfFrom_erase h
  · exact wfFrom_insert h (Nat.zero_le a) ha ‹_›

/-- A read after a write: the byte written at its address, the old byte everywhere else. -/
theorem read_write (m : Memory) (a c : Nat) (b : Byte) :
    Memory.read font (Memory.write font a b m) c = if c = a then b else Memory.read font m c := by
  unfold Memory.read Memory.write
  split
  · rename_i hb
    rw [find_erase]
    split
    · rename_i hc
      simp [hb, hc]
    · rfl
  · rw [find_insert]
    split <;> rfl

/-! ### The memory operations of the state -/

theorem maskAddr_lt (a : Nat) : maskAddr a < 4096 := Nat.mod_lt _ (by decide)

@[simp] theorem memRead_mod (s : State) (a : Nat) : s.memRead (a % 4096) = s.memRead a := by
  simp [State.memRead, maskAddr]

/-- A write depends on its address modulo 4096 only (20_memory.md R51). -/
@[simp] theorem memWrite_mod (s : State) (a : Nat) (b : Byte) : s.memWrite (a % 4096) b = s.memWrite a b := by
  have h : maskAddr (a % 4096) = maskAddr a := Nat.mod_mod a 4096
  unfold State.memWrite State.writeDropped
  rw [h]

/-- A write changes memory and nothing else. -/
theorem memWrite_eq (s : State) (a : Nat) (b : Byte) : s.memWrite a b = { s with mem := (s.memWrite a b).mem } := by
  unfold State.memWrite
  split <;> rfl

@[simp] theorem memWrite_cfg (s : State) (a : Nat) (b : Byte) : (s.memWrite a b).cfg = s.cfg := by
  rw [memWrite_eq]

@[simp] theorem writeDropped_memWrite (s : State) (a c : Nat) (b : Byte) :
    (s.memWrite a b).writeDropped c = s.writeDropped c := by
  simp [State.writeDropped]

/-- `MemRead` after `MemWrite`: the byte written, unless the write was dropped, and the old byte everywhere else. -/
theorem memRead_memWrite (s : State) (a c : Nat) (b : Byte) :
    (s.memWrite a b).memRead c =
      if c % 4096 = a % 4096 ∧ s.writeDropped a = false then b else s.memRead c := by
  unfold State.memWrite
  split
  · rename_i h
    simp [h]
  · rename_i h
    simp only [State.memRead, read_write, maskAddr, h, and_true]

/-- A write keeps the canonical form. -/
theorem memWrite_wf {s : State} (a : Nat) (b : Byte) (h : Memory.wf s.cfg.fontData s.mem = true) :
    Memory.wf (s.memWrite a b).cfg.fontData (s.memWrite a b).mem = true := by
  unfold State.memWrite
  split
  · exact h
  · exact write_wf h (maskAddr_lt a)

/-- A transfer changes memory and nothing else. -/
theorem storeBytes_eq (s : State) (a : Nat) (bs : List Byte) :
    s.storeBytes a bs = { s with mem := (s.storeBytes a bs).mem } := by
  induction bs generalizing s a with
  | nil => rfl
  | cons b bs ih =>
    simp only [State.storeBytes]
    rw [ih, memWrite_eq]

@[simp] theorem storeBytes_cfg (s : State) (a : Nat) (bs : List Byte) : (s.storeBytes a bs).cfg = s.cfg := by
  rw [storeBytes_eq]

@[simp] theorem storeBytes_i (s : State) (a : Nat) (bs : List Byte) : (s.storeBytes a bs).i = s.i := by
  rw [storeBytes_eq]

@[simp] theorem storeBytes_events (s : State) (a : Nat) (bs : List Byte) : (s.storeBytes a bs).events = s.events := by
  rw [storeBytes_eq]

/-- A transfer keeps the canonical form. -/
theorem storeBytes_wf {s : State} (a : Nat) (bs : List Byte) (h : Memory.wf s.cfg.fontData s.mem = true) :
    Memory.wf (s.storeBytes a bs).cfg.fontData (s.storeBytes a bs).mem = true := by
  induction bs generalizing s a with
  | nil => exact h
  | cons b bs ih => exact ih (a + 1) (memWrite_wf a b h)

/-- A byte that a transfer does not reach, or whose write is dropped, is kept. -/
theorem memRead_storeBytes_outside (s : State) (a c : Nat) (bs : List Byte)
    (h : (∀ j < bs.length, c % 4096 ≠ (a + j) % 4096) ∨ s.writeDropped c = true) :
    (s.storeBytes a bs).memRead c = s.memRead c := by
  induction bs generalizing s a with
  | nil => rfl
  | cons b bs ih =>
    simp only [State.storeBytes]
    rw [ih, memRead_memWrite]
    · split
      · rename_i hc
        rcases h with h | h
        · exact absurd hc.1 (h 0 (by simp))
        · simp_all [State.writeDropped, maskAddr]
      · rfl
    · rcases h with h | h
      · left
        intro j hj
        have := h (j + 1) (by simpa using hj)
        rwa [Nat.add_assoc, Nat.add_comm 1 j]
      · right
        simpa using h

/-- A byte that a transfer of at most 4096 bytes reaches is the byte transferred, unless its write is dropped. -/
theorem memRead_storeBytes_inside (s : State) (a j : Nat) (bs : List Byte) (hj : j < bs.length)
    (hl : bs.length ≤ 4096) (h : s.writeDropped (a + j) = false) :
    (s.storeBytes a bs).memRead (a + j) = bs[j] := by
  induction bs generalizing s a j with
  | nil => exact absurd hj (by simp)
  | cons b bs ih =>
    simp only [List.length_cons] at hj hl
    simp only [State.storeBytes]
    cases j with
    | zero =>
      rw [memRead_storeBytes_outside, memRead_memWrite]
      · have h' : s.writeDropped a = false := by simpa using h
        simp [h']
      · left
        intro j hj
        omega
    | succ j =>
      have e : a + (j + 1) = a + 1 + j := by omega
      rw [e] at h ⊢
      rw [ih _ _ _ (by omega) (by omega) (by simpa using h)]
      simp

/-- Loading registers changes `V` and nothing else. -/
theorem loadBytes_eq (s : State) (a n : Nat) : s.loadBytes a n = { s with v := (s.loadBytes a n).v } := by
  induction n with
  | zero => rfl
  | succ n ih =>
    simp only [State.loadBytes]
    rw [ih]
    rfl

@[simp] theorem loadBytes_events (s : State) (a n : Nat) : (s.loadBytes a n).events = s.events := by
  rw [loadBytes_eq]

/-- The first `n` registers take the bytes from `a` on; the others are kept. -/
theorem getV_loadBytes (s : State) (a n : Nat) (hn : n ≤ 16) (r : Nibble) :
    (s.loadBytes a n).getV r = if r.toNat < n then s.memRead (a + r.toNat) else s.getV r := by
  induction n with
  | zero => rfl
  | succ n ih =>
    have hm : (s.loadBytes a n).memRead (a + n) = s.memRead (a + n) := by
      rw [loadBytes_eq]
      rfl
    simp only [State.loadBytes, getV_setV, hm, ih (by omega)]
    have hr : (r = BitVec.ofNat 4 n) ↔ r.toNat = n := by
      rw [← BitVec.toNat_inj, BitVec.toNat_ofNat, Nat.mod_eq_of_lt (by omega)]
    by_cases h : r.toNat = n
    · simp [hr, h]
    · have : (r.toNat < n + 1) ↔ r.toNat < n := by omega
      simp [hr, h, this]

/-! ### The ROM loader -/

/-- `load` changes memory and nothing else. -/
theorem load_eq (s : State) (a : Nat) (b : Byte) : s.load a b = { s with mem := (s.load a b).mem } := rfl

/-- A byte after `load`. -/
theorem memRead_load (s : State) (a c : Nat) (b : Byte) :
    (s.load a b).memRead c = if c % 4096 = a % 4096 then b else s.memRead c := by
  simp only [State.memRead, State.load, read_write, maskAddr]

/-- `load` keeps the canonical form. -/
theorem load_wf {s : State} (a : Nat) (b : Byte) (h : Memory.wf s.cfg.fontData s.mem = true) :
    Memory.wf (s.load a b).cfg.fontData (s.load a b).mem = true := write_wf h (maskAddr_lt a)

/-- The loader changes memory and nothing else. -/
theorem loadRom_eq (s : State) (a : Nat) (bs : List Byte) :
    s.loadRom a bs = { s with mem := (s.loadRom a bs).mem } := by
  induction bs generalizing s a with
  | nil => rfl
  | cons b bs ih =>
    simp only [State.loadRom]
    rw [ih]
    rfl

/-- The loader keeps the canonical form. -/
theorem loadRom_wf {s : State} (a : Nat) (bs : List Byte) (h : Memory.wf s.cfg.fontData s.mem = true) :
    Memory.wf (s.loadRom a bs).cfg.fontData (s.loadRom a bs).mem = true := by
  induction bs generalizing s a with
  | nil => exact h
  | cons b bs ih => exact ih (a + 1) (load_wf a b h)

/-- A byte the loader does not reach is kept. -/
theorem memRead_loadRom_outside (s : State) (a c : Nat) (bs : List Byte)
    (h : ∀ j < bs.length, c % 4096 ≠ (a + j) % 4096) : (s.loadRom a bs).memRead c = s.memRead c := by
  induction bs generalizing s a with
  | nil => rfl
  | cons b bs ih =>
    simp only [State.loadRom]
    rw [ih, memRead_load, if_neg (by simpa using h 0 (by simp))]
    intro j hj
    have := h (j + 1) (by simpa using hj)
    rwa [Nat.add_assoc, Nat.add_comm 1 j]

/-- A byte the loader reaches is the byte of the file. -/
theorem memRead_loadRom_inside (s : State) (a j : Nat) (bs : List Byte) (hj : j < bs.length)
    (hl : bs.length ≤ 4096) : (s.loadRom a bs).memRead (a + j) = bs[j] := by
  induction bs generalizing s a j with
  | nil => exact absurd hj (by simp)
  | cons b bs ih =>
    simp only [List.length_cons] at hj hl
    simp only [State.loadRom]
    cases j with
    | zero =>
      rw [memRead_loadRom_outside, memRead_load]
      · simp
      · intro j hj
        omega
    | succ j =>
      have e : a + (j + 1) = a + 1 + j := by omega
      rw [e, ih _ _ _ (by omega) (by omega)]
      simp

end Sys2Proof.Machine
end

