-- ==== Sys2Proof/Laws/Events.lean ====
section
/-! SUPPORT. The laws of the supply of events and of runs: what a supply gives, what every step leaves of it, and how runs
compose. -/

namespace Sys2Proof.Machine

/-! ### The supply -/

/-- What a supply gives is its next event, and every supply gives one. -/
theorem gives_iff (q q' : EventSupply) (e : Event) : q.Gives e q' ↔ q.next = (e, q') := by
  constructor
  · intro h
    cases h <;> rfl
  · obtain ⟨l, r, n⟩ := q
    intro h
    cases l with
    | cons a l => simp only [EventSupply.next, Prod.mk.injEq] at h; obtain ⟨rfl, rfl⟩ := h; exact .listed ..
    | nil =>
      cases r with
      | cons a r => simp only [EventSupply.next, Prod.mk.injEq] at h; obtain ⟨rfl, rfl⟩ := h; exact .recurring ..
      | nil => simp only [EventSupply.next, Prod.mk.injEq] at h; obtain ⟨rfl, rfl⟩ := h; exact .free ..

@[simp] theorem next_listed (e : Event) (es rs : List Event) (n : Nat) :
    EventSupply.next ⟨e :: es, rs, n⟩ = (e, ⟨es, rs, n⟩) := rfl

@[simp] theorem next_recurring (e : Event) (es : List Event) (n : Nat) :
    EventSupply.next ⟨[], e :: es, n⟩ = (e, ⟨es, e :: es, n⟩) := rfl

@[simp] theorem next_free (n : Nat) : EventSupply.next ⟨[], [], n⟩ = (Config.hostEvent n, ⟨[], [], n + 1⟩) := rfl

/-- What recurs is never changed by taking an event. -/
@[simp] theorem next_recurring_kept (q : EventSupply) : q.next.2.recurring = q.recurring := by
  obtain ⟨l, r, n⟩ := q
  cases l <;> cases r <;> rfl

/-! ### What every instruction leaves of the supply -/

/-- No instruction touches the supply of events. -/
theorem exec_events {i : Instr} {s t : State} (h : exec i s = .next t) : t.events = s.events := by
  cases i
  case ldVxK x =>
    simp only [exec, execLdVxK, keyWaitLevel, keyWaitEdge] at h
    repeat' split at h
    all_goals (injection h with h; subst h; rfl)
  case ldB x =>
    injection h with h
    subst h
    exact storeBytes_events s _ _
  case storeRegs x =>
    injection h with h
    subst h
    rw [indexUpdate_eq]
    exact storeBytes_events s _ _
  case loadRegs x =>
    injection h with h
    subst h
    rw [indexUpdate_eq]
    exact loadBytes_events s _ _
  all_goals (injection h with h; subst h; first | rfl | rw [skipIf_eq])

/-- An event takes itself off the supply and changes nothing else of it. -/
theorem step_events {s t : State} (h : step s = .next t) : t.events = s.events.next.2 := by
  unfold step at h
  split at h
  · exact exec_events h
  · injection h with h; subst h; rfl
  · injection h with h; subst h; rfl

/-- An event is the next of the supply, performed on the state it is taken off. -/
theorem step_eq_performed (s : State) : step s = performed s.events.next.1 s.eventTaken := by
  unfold step performed
  split <;> simp_all

/-! ### Runs -/

@[simp] theorem reaches_zero (s t : State) : Reaches s 0 t ↔ t = s := by
  simp only [Reaches, Host.Core.run]
  exact ⟨fun h => by injection h with h; exact h.symm, fun h => by rw [h]⟩

/-- One event more at the front of a run. -/
theorem reaches_succ (s t : State) (n : Nat) : Reaches s (n + 1) t ↔ ∃ u, step s = .next u ∧ Reaches u n t := by
  have e : Sys2Proof.core.step s = step s := rfl
  simp only [Reaches, Host.Core.run, e]
  cases step s with
  | next u => exact ⟨fun h => ⟨u, rfl, h⟩, fun ⟨_, hv, hr⟩ => by injection hv with hv; subst hv; exact hr⟩
  | fault r => exact r.casesOn
  | refused r => exact ⟨fun h => (by injection h), fun ⟨_, hv, _⟩ => (by injection hv)⟩

/-- Runs compose. -/
theorem reaches_add (s t : State) (m n : Nat) : Reaches s (m + n) t ↔ ∃ u, Reaches s m u ∧ Reaches u n t := by
  induction m generalizing s with
  | zero => simp
  | succ m ih =>
    rw [Nat.add_right_comm, reaches_succ]
    constructor
    · rintro ⟨u, hu, hr⟩
      obtain ⟨v, hv, hw⟩ := (ih u).mp hr
      exact ⟨v, (reaches_succ s v m).mpr ⟨u, hu, hv⟩, hw⟩
    · rintro ⟨v, hv, hw⟩
      obtain ⟨u, hu, hr⟩ := (reaches_succ s v m).mp hv
      exact ⟨u, hu, (ih u).mpr ⟨v, hr, hw⟩⟩

end Sys2Proof.Machine
end

