-- ==== Sys2Proof/Laws/Keypad.lean ====
section
/-! SUPPORT. The laws of the keypad: which keys a key state lists, and that the key Fx0A stores is one of them. -/

namespace Sys2Proof.Machine

/-- The list of the keys that are 1. -/
theorem mem_keyList (ks : Word) (k : Nibble) : k ∈ keyList ks ↔ ks.getLsbD k.toNat = true := by
  simp only [keyList, List.mem_map, List.mem_filter, List.mem_range]
  constructor
  · rintro ⟨j, ⟨hj, hb⟩, rfl⟩
    rwa [BitVec.toNat_ofNat, Nat.mod_eq_of_lt (by omega)]
  · intro h
    exact ⟨k.toNat, ⟨k.isLt, h⟩, BitVec.eq_of_toNat_eq (by simp)⟩

/-- No key is listed exactly when no bit is 1. -/
theorem keyList_eq_nil (ks : Word) : keyList ks = [] ↔ ks = 0 := by
  constructor
  · intro h
    refine BitVec.eq_of_getLsbD_eq fun i hi => ?_
    have := mem_keyList ks (BitVec.ofNat 4 i)
    rw [h, BitVec.toNat_ofNat, Nat.mod_eq_of_lt (by omega)] at this
    simpa using this
  · rintro rfl
    decide

/-- The chosen key is one of the keys offered, whatever the free draw. -/
theorem chooseKey_mem (draw : Nat) (k : Nibble) (ks : List Nibble) : chooseKey draw k ks ∈ k :: ks := by
  cases ks with
  | nil => simp [chooseKey]
  | cons k' ks =>
    have h : Config.keyChoice draw % (ks.length + 2) < (k :: k' :: ks).length := by
      simpa using Nat.mod_lt _ (Nat.succ_pos (ks.length + 1))
    simp only [chooseKey, List.getD_eq_getElem?_getD, List.getElem?_eq_getElem h, Option.getD_some]
    exact List.getElem_mem h

end Sys2Proof.Machine
end

