-- ==== Sys2Proof/Laws/Operands.lean ====
section
/-! SUPPORT. The operand forms and the PC, SP and timer arithmetic of the machine as numbers, one lemma for each
operation. -/

namespace Sys2Proof.Machine

/-! ### Program counter and stack pointer -/

theorem and_0xFFF_toNat (w : Word) : (w &&& 0xFFF).toNat = w.toNat % 4096 := by
  rw [BitVec.toNat_and]
  exact Nat.and_two_pow_sub_one_eq_mod w.toNat 12

/-- Every write of PC stores its value modulo 4096 (10_state.md R24). -/
theorem setPc_pc_toNat (s : State) (w : Word) : (s.setPc w).pc.toNat = w.toNat % 4096 := by
  rw [setPc_pc, and_0xFFF_toNat]

/-- PC after a skip: two more, modulo 4096, if the condition holds (40_execution_cycle.md R92). -/
theorem skipIf_pc_toNat (s : State) (c : Bool) :
    (s.skipIf c).pc.toNat = if c = true then (s.pc.toNat + 2) % 4096 else s.pc.toNat := by
  cases c
  · rfl
  · rw [if_pos rfl]
    refine (setPc_pc_toNat s (s.pc + 2)).trans ?_
    rw [BitVec.toNat_add]
    exact Nat.mod_mod_of_dvd _ (by decide)

/-- Rewinding by 2 the PC that the fetch advanced gives the PC of the fetch (45_timers_keypad.md R175). -/
theorem rewind_advanced (pc : Word) (h : pc.toNat < 4096) : (((pc + 2) &&& 0xFFF) - 2) &&& 0xFFF = pc := by
  apply BitVec.eq_of_toNat_eq
  rw [and_0xFFF_toNat, BitVec.toNat_sub, and_0xFFF_toNat, BitVec.toNat_add]
  have : (2 : Word).toNat = 2 := rfl
  omega

theorem succ_nibble_toNat (a : Nibble) : (a + 1).toNat = (a.toNat + 1) % 16 := by revert a; decide

theorem pred_nibble_toNat (a : Nibble) : (a - 1).toNat = (a.toNat + 15) % 16 := by revert a; decide

/-! ### Operands -/

theorem addrWord_toNat (nnn : Addr) : (addrWord nnn).toNat = nnn.toNat := by
  have := nnn.isLt
  simp only [addrWord, BitVec.toNat_setWidth]
  omega

theorem getVWord_toNat (s : State) (x : Nibble) : (s.getVWord x).toNat = (s.getV x).toNat := by
  have := (s.getV x).isLt
  simp only [State.getVWord, BitVec.toNat_setWidth]
  omega

theorem regList_length (s : State) (x : Nibble) : (s.regList x).length = x.toNat + 1 := by
  simp [State.regList]

/-- Element `k` of the register list is `V[k]`. -/
theorem regList_getElem (s : State) (x k : Nibble) (h : k.toNat < (s.regList x).length) :
    (s.regList x)[k.toNat] = s.getV k := by
  simp [State.regList]

/-- When a memory write is dropped (20_memory.md R54). -/
theorem writeDropped_iff (s : State) (a : Nat) :
    s.writeDropped a = true ↔ s.cfg.fontWrite = .ignore ∧ a % 4096 ≤ 0x04F := by
  rw [State.writeDropped, Bool.and_eq_true, decide_eq_true_iff, beq_iff_eq]
  rfl

theorem flagByte_toNat (b : Bool) : (flagByte b).toNat = b.toNat := by cases b <;> rfl

/-! ### Timers -/

theorem countDown_toNat (t : Byte) : (countDown t).toNat = t.toNat - 1 := by revert t; decide

end Sys2Proof.Machine
end

