-- ==== Sys2Proof/Laws/PerInstr.lean ====
section
/-! SUPPORT. A statement for every instruction, one lemma per constructor: the word of an instruction meets the mask and
the fixed bits that 30_encoding.md R72 and spec/opcode_table.json give its row. -/

namespace Sys2Proof.Laws.RowMatch

/-- The mask column of 30_encoding.md R72. -/
def rowMask : Instr → Word
  | .cls => 0xFFFF
  | .ret => 0xFFFF
  | .jp _ => 0xF000
  | .call _ => 0xF000
  | .seImm _ _ => 0xF000
  | .sneImm _ _ => 0xF000
  | .seReg _ _ _ => 0xF000
  | .ldImm _ _ => 0xF000
  | .addImm _ _ => 0xF000
  | .ldReg _ _ => 0xF00F
  | .orReg _ _ => 0xF00F
  | .andReg _ _ => 0xF00F
  | .xorReg _ _ => 0xF00F
  | .addReg _ _ => 0xF00F
  | .subReg _ _ => 0xF00F
  | .shr _ _ => 0xF00F
  | .subn _ _ => 0xF00F
  | .shl _ _ => 0xF00F
  | .sneReg _ _ _ => 0xF000
  | .ldI _ => 0xF000
  | .jpV0 _ => 0xF000
  | .rnd _ _ => 0xF000
  | .drw _ _ _ => 0xF000
  | .skp _ => 0xF0FF
  | .sknp _ => 0xF0FF
  | .ldVxDt _ => 0xF0FF
  | .ldVxK _ => 0xF0FF
  | .ldDtVx _ => 0xF0FF
  | .ldStVx _ => 0xF0FF
  | .addI _ => 0xF0FF
  | .ldF _ => 0xF0FF
  | .ldB _ => 0xF0FF
  | .storeRegs _ => 0xF0FF
  | .loadRegs _ => 0xF0FF
  | .fallback _ => 0x0000

/-- The fixed-bits column of 30_encoding.md R72. -/
def rowFixed : Instr → Word
  | .cls => 0x00E0
  | .ret => 0x00EE
  | .jp _ => 0x1000
  | .call _ => 0x2000
  | .seImm _ _ => 0x3000
  | .sneImm _ _ => 0x4000
  | .seReg _ _ _ => 0x5000
  | .ldImm _ _ => 0x6000
  | .addImm _ _ => 0x7000
  | .ldReg _ _ => 0x8000
  | .orReg _ _ => 0x8001
  | .andReg _ _ => 0x8002
  | .xorReg _ _ => 0x8003
  | .addReg _ _ => 0x8004
  | .subReg _ _ => 0x8005
  | .shr _ _ => 0x8006
  | .subn _ _ => 0x8007
  | .shl _ _ => 0x800E
  | .sneReg _ _ _ => 0x9000
  | .ldI _ => 0xA000
  | .jpV0 _ => 0xB000
  | .rnd _ _ => 0xC000
  | .drw _ _ _ => 0xD000
  | .skp _ => 0xE09E
  | .sknp _ => 0xE0A1
  | .ldVxDt _ => 0xF007
  | .ldVxK _ => 0xF00A
  | .ldDtVx _ => 0xF015
  | .ldStVx _ => 0xF018
  | .addI _ => 0xF01E
  | .ldF _ => 0xF029
  | .ldB _ => 0xF033
  | .storeRegs _ => 0xF055
  | .loadRegs _ => 0xF065
  | .fallback _ => 0x0000

/-- The word of a well-formed instruction matches its own row: "`word & mask == fixed-bits`" (30_encoding.md R73). -/
def Statement (i : Instr) : Prop := i.wellFormed = true → encode i &&& rowMask i = rowFixed i

/-- A word whose first nibble is `a` keeps it under the mask 0xF000. -/
theorem and_F000 (a : Nibble) (r : Addr) : (a ++ r : Word) &&& (0xF#4 ++ 0#12 : Word) = a ++ 0#12 := by
  rw [BitVec.and_append, nibble_and_F, BitVec.and_zero]

/-- The same with a register index and an immediate after the nibble. -/
theorem and_F000_byte (a x : Nibble) (kk : Byte) : (a ++ x ++ kk : Word) &&& (0xF#4 ++ 0#4 ++ 0#8 : Word) = a ++ 0#4 ++ 0#8 := by
  rw [BitVec.and_append, BitVec.and_append, nibble_and_F, BitVec.and_zero, BitVec.and_zero]

/-- The same with three nibbles after the first. -/
theorem and_F000_nibbles (a x y n : Nibble) :
    (a ++ x ++ y ++ n : Word) &&& (0xF#4 ++ 0#4 ++ 0#4 ++ 0#4 : Word) = a ++ 0#4 ++ 0#4 ++ 0#4 := by
  simp only [and_nibbles, nibble_and_F, BitVec.and_zero]

/-- A word of the 8xy_ family keeps its first and last nibble under the mask 0xF00F. -/
theorem and_F00F (a x y n : Nibble) :
    (a ++ x ++ y ++ n : Word) &&& (0xF#4 ++ 0#4 ++ 0#4 ++ 0xF#4 : Word) = a ++ 0#4 ++ 0#4 ++ n := by
  simp only [and_nibbles, nibble_and_F, BitVec.and_zero]

/-- A word of the Ex__ and Fx__ families keeps its first nibble and its low byte under the mask 0xF0FF. -/
theorem and_F0FF (a x : Nibble) (kk : Byte) : (a ++ x ++ kk : Word) &&& (0xF#4 ++ 0#4 ++ 0xFF#8 : Word) = a ++ 0#4 ++ kk := by
  rw [BitVec.and_append, BitVec.and_append, nibble_and_F, BitVec.and_zero, show (0xFF#8) = BitVec.allOnes 8 from rfl, BitVec.and_allOnes]

theorem cls : Statement .cls := fun _ => rfl

theorem ret : Statement .ret := fun _ => rfl

theorem jp (nnn : Addr) : Statement (.jp nnn) := fun _ => and_F000 0x1 nnn

theorem call (nnn : Addr) : Statement (.call nnn) := fun _ => and_F000 0x2 nnn

theorem seImm (x : Nibble) (kk : Byte) : Statement (.seImm x kk) := fun _ => and_F000_byte 0x3 x kk

theorem sneImm (x : Nibble) (kk : Byte) : Statement (.sneImm x kk) := fun _ => and_F000_byte 0x4 x kk

theorem seReg (x y n : Nibble) : Statement (.seReg x y n) := fun _ => and_F000_nibbles 0x5 x y n

theorem ldImm (x : Nibble) (kk : Byte) : Statement (.ldImm x kk) := fun _ => and_F000_byte 0x6 x kk

theorem addImm (x : Nibble) (kk : Byte) : Statement (.addImm x kk) := fun _ => and_F000_byte 0x7 x kk

theorem ldReg (x y : Nibble) : Statement (.ldReg x y) := fun _ => and_F00F 0x8 x y 0x0

theorem orReg (x y : Nibble) : Statement (.orReg x y) := fun _ => and_F00F 0x8 x y 0x1

theorem andReg (x y : Nibble) : Statement (.andReg x y) := fun _ => and_F00F 0x8 x y 0x2

theorem xorReg (x y : Nibble) : Statement (.xorReg x y) := fun _ => and_F00F 0x8 x y 0x3

theorem addReg (x y : Nibble) : Statement (.addReg x y) := fun _ => and_F00F 0x8 x y 0x4

theorem subReg (x y : Nibble) : Statement (.subReg x y) := fun _ => and_F00F 0x8 x y 0x5

theorem shr (x y : Nibble) : Statement (.shr x y) := fun _ => and_F00F 0x8 x y 0x6

theorem subn (x y : Nibble) : Statement (.subn x y) := fun _ => and_F00F 0x8 x y 0x7

theorem shl (x y : Nibble) : Statement (.shl x y) := fun _ => and_F00F 0x8 x y 0xE

theorem sneReg (x y n : Nibble) : Statement (.sneReg x y n) := fun _ => and_F000_nibbles 0x9 x y n

theorem ldI (nnn : Addr) : Statement (.ldI nnn) := fun _ => and_F000 0xA nnn

theorem jpV0 (nnn : Addr) : Statement (.jpV0 nnn) := fun _ => and_F000 0xB nnn

theorem rnd (x : Nibble) (kk : Byte) : Statement (.rnd x kk) := fun _ => and_F000_byte 0xC x kk

theorem drw (x y n : Nibble) : Statement (.drw x y n) := fun _ => and_F000_nibbles 0xD x y n

theorem skp (x : Nibble) : Statement (.skp x) := fun _ => and_F0FF 0xE x 0x9E

theorem sknp (x : Nibble) : Statement (.sknp x) := fun _ => and_F0FF 0xE x 0xA1

theorem ldVxDt (x : Nibble) : Statement (.ldVxDt x) := fun _ => and_F0FF 0xF x 0x07

theorem ldVxK (x : Nibble) : Statement (.ldVxK x) := fun _ => and_F0FF 0xF x 0x0A

theorem ldDtVx (x : Nibble) : Statement (.ldDtVx x) := fun _ => and_F0FF 0xF x 0x15

theorem ldStVx (x : Nibble) : Statement (.ldStVx x) := fun _ => and_F0FF 0xF x 0x18

theorem addI (x : Nibble) : Statement (.addI x) := fun _ => and_F0FF 0xF x 0x1E

theorem ldF (x : Nibble) : Statement (.ldF x) := fun _ => and_F0FF 0xF x 0x29

theorem ldB (x : Nibble) : Statement (.ldB x) := fun _ => and_F0FF 0xF x 0x33

theorem storeRegs (x : Nibble) : Statement (.storeRegs x) := fun _ => and_F0FF 0xF x 0x55

theorem loadRegs (x : Nibble) : Statement (.loadRegs x) := fun _ => and_F0FF 0xF x 0x65

theorem fallback (w : Word) : Statement (.fallback w) := fun _ => BitVec.and_zero

end Sys2Proof.Laws.RowMatch
end

