-- ==== Sys2Proof/Tests/Slice0.lean ====
section
/-! SUPPORT. Tests. Every expected value is the spec's: the decoder words and the vectors are those of
spec/95_test_vectors.md (§1 worked examples S<n>, §2 derived vectors) or are worked out by hand from the rule named. Then,
for every obligation with hypotheses, states and operands that meet them. -/

namespace Sys2Proof.Tests

open Sys2Proof.Machine

/-! ### Well-formedness -/

/-- `00E0` is row 1's word, so no fallback stands for it (30_encoding.md R77). -/
theorem test_ill_formed_fallback_refused : (Instr.fallback 0x00E0).wellFormed = false := by decide

/-- A fallback on a word of each family that a row takes is ill-formed (30_encoding.md R72). -/
theorem test_ill_formed_fallbacks_refused :
    [0x00EE, 0x1ABC, 0x8AB7, 0x8ABE, 0xE19E, 0xE1A1, 0xF107, 0xF165].all
      (fun w => !(Instr.fallback w).wellFormed) = true := by decide

/-- The fallback words of 95_test_vectors.md §2.7 are well-formed. -/
theorem test_unrecognized_words :
    [0x0000, 0x0123, 0x00E1, 0x8008, 0x800F, 0xE000, 0xE19F, 0xF000, 0xFFFF].all unrecognized = true := by decide

/-! ### Decoding: words written out from 30_encoding.md R72 -/

theorem test_decode_control :
    decodeWord 0b0000000011101110 = .ret ∧ decodeWord 0b0001101010111100 = .jp 0xABC ∧
    decodeWord 0b0010001100000000 = .call 0x300 ∧ decodeWord 0b1011001100000100 = .jpV0 0x304 := by decide

theorem test_decode_skips :
    decodeWord 0b0011001100101010 = .seImm 0x3 0x2A ∧ decodeWord 0b0100001100101011 = .sneImm 0x3 0x2B ∧
    decodeWord 0b0101000100101111 = .seReg 0x1 0x2 0xF ∧ decodeWord 0b1001101010110111 = .sneReg 0xA 0xB 0x7 := by
  decide

theorem test_decode_immediate :
    decodeWord 0b0110101000101011 = .ldImm 0xA 0x2B ∧ decodeWord 0b0111000111111111 = .addImm 0x1 0xFF ∧
    decodeWord 0b1010001100000000 = .ldI 0x300 ∧ decodeWord 0b1100001100001111 = .rnd 0x3 0x0F := by decide

theorem test_decode_alu_moves :
    decodeWord 0b1000101010110000 = .ldReg 0xA 0xB ∧ decodeWord 0b1000101010110001 = .orReg 0xA 0xB ∧
    decodeWord 0b1000101010110010 = .andReg 0xA 0xB ∧ decodeWord 0b1000101010110011 = .xorReg 0xA 0xB := by decide

theorem test_decode_alu_flags :
    decodeWord 0b1000101010110100 = .addReg 0xA 0xB ∧ decodeWord 0b1000101010110101 = .subReg 0xA 0xB ∧
    decodeWord 0b1000101010110110 = .shr 0xA 0xB ∧ decodeWord 0b1000101010110111 = .subn 0xA 0xB ∧
    decodeWord 0b1000101010111110 = .shl 0xA 0xB := by decide

theorem test_decode_display :
    decodeWord 0b0000000011100000 = .cls ∧ decodeWord 0b1101000100101111 = .drw 0x1 0x2 0xF := by decide

theorem test_decode_keypad :
    decodeWord 0b1110000110011110 = .skp 0x1 ∧ decodeWord 0b1110000110100001 = .sknp 0x1 ∧
    decodeWord 0b1111000100001010 = .ldVxK 0x1 := by decide

theorem test_decode_timers :
    decodeWord 0b1111001100000111 = .ldVxDt 0x3 ∧ decodeWord 0b1111000100010101 = .ldDtVx 0x1 ∧
    decodeWord 0b1111001000011000 = .ldStVx 0x2 := by decide

theorem test_decode_index_memory :
    decodeWord 0b1111001000011110 = .addI 0x2 ∧ decodeWord 0b1111001100101001 = .ldF 0x3 ∧
    decodeWord 0b1111000000110011 = .ldB 0x0 ∧ decodeWord 0b1111001001010101 = .storeRegs 0x2 ∧
    decodeWord 0b1111000101100101 = .loadRegs 0x1 := by decide

/-- 95_test_vectors.md §2.1, the words that take the fallback. -/
theorem test_decode_fallback :
    decodeWord 0x0000 = .fallback 0x0000 ∧ decodeWord 0x00E1 = .fallback 0x00E1 ∧
    decodeWord 0x0123 = .fallback 0x0123 ∧ decodeWord 0x8AB8 = .fallback 0x8AB8 ∧
    decodeWord 0x8ABF = .fallback 0x8ABF ∧ decodeWord 0xE19F = .fallback 0xE19F ∧
    decodeWord 0xF10B = .fallback 0xF10B ∧ decodeWord 0xF166 = .fallback 0xF166 ∧
    decodeWord 0xFFFF = .fallback 0xFFFF := by decide

/-- The byte at the lower address is the high byte, and one byte is no instruction (20_memory.md R55). -/
theorem test_decode_bytes :
    decode [0x12, 0x34, 0x56] = .ok (.jp 0x234, [0x56]) ∧ decode [0x12] = .error .truncated ∧
    decodeTableWord 16 0x1234 = some (.jp 0x234) := by decide

/-! ### One step -/

/-- The reset state with these registers set. -/
def withV (vs : List (Nibble × Byte)) : State := vs.foldl (fun s p => s.setV p.1 p.2) State.reset

/-- `s` with the bytes `bs` at `a` on. -/
def withBytes (s : State) (a : Nat) (bs : List Byte) : State := s.loadRom a bs

/-- `s` under other parameters. -/
def withCfg (s : State) (p : Params) : State := { s with cfg := p }

/-- One step of `s` with the word `w` at its PC ends in a state that passes `check`. -/
def ran (s : State) (w : Nat) (check : State → Bool) : Bool :=
  match step (s.withFetchWord 16 w) with
  | .next t => check t
  | .fault _ => false
  | .refused _ => false

/-- The pixels that are set, as (column, row), among those listed, in a framebuffer with no others set in the rows
`rows`. -/
def pixelsAre (t : State) (rows : List Nat) (set : List (Nat × Nat)) : Bool :=
  rows.all fun r => (List.range 64).all fun c =>
    t.pixel (Fin.ofNat 64 c) (Fin.ofNat 32 r) == set.contains (c, r)

-- §2.2: control transfer and skips.
theorem test_ret_empty_stack : ran State.reset 0x00EE (fun t => t.pc == 0x000 && t.sp == 15) = true := by decide
theorem test_ret : ran { State.reset.push 0x202 with pc := 0x300 } 0x00EE (fun t => t.pc == 0x202 && t.sp == 0) = true := by
  decide
theorem test_call_wraps_pc :
    ran { State.reset with pc := 0xFFE } 0x2300 (fun t => t.sp == 1 && t.slot 1 == 0x000 && t.pc == 0x300) = true := by
  decide
theorem test_call_wraps_sp :
    ran { State.reset with sp := 15 } 0x2300 (fun t => t.sp == 0 && t.slot 0 == 0x202 && t.pc == 0x300) = true := by
  decide
theorem test_jp_odd : ran State.reset 0x1201 (fun t => t.pc == 0x201) = true := by decide
theorem test_jp_at_wrapped_fetch :
    ran { State.reset with pc := 0xFFF } 0x1234 (fun t => t.pc == 0x234) = true := by decide
theorem test_jpV0_wraps : ran (withV [(0, 0x01)]) 0xBFFF (fun t => t.pc == 0x000) = true := by decide
theorem test_jpV0 : ran (withV [(0, 0xFF)]) 0xBFFF (fun t => t.pc == 0x0FE) = true := by decide
theorem test_seImm_taken_wraps : ran { State.reset with pc := 0xFFC } 0x3000 (fun t => t.pc == 0x000) = true := by decide
theorem test_seImm_not_taken : ran (withV [(3, 0x2A)]) 0x332B (fun t => t.pc == 0x202) = true := by decide
theorem test_sneImm_taken : ran (withV [(3, 0x2A)]) 0x432B (fun t => t.pc == 0x204) = true := by decide
theorem test_sneImm_not_taken : ran (withV [(3, 0x2A)]) 0x432A (fun t => t.pc == 0x202) = true := by decide
theorem test_seReg_taken : ran (withV [(1, 3), (2, 3)]) 0x512F (fun t => t.pc == 0x204) = true := by decide
theorem test_seReg_not_taken : ran (withV [(1, 3), (2, 4)]) 0x5120 (fun t => t.pc == 0x202) = true := by decide
theorem test_sneReg_taken : ran (withV [(1, 7), (2, 8)]) 0x9120 (fun t => t.pc == 0x204) = true := by decide
theorem test_sneReg_same : ran State.reset 0x9110 (fun t => t.pc == 0x202) = true := by decide

-- §2.3: the ALU. VF starts at AA unless given.
theorem test_ldImm : ran (withV [(0xF, 0xAA)]) 0x6A2B (fun t => t.getV 0xA == 0x2B && t.getV 0xF == 0xAA) = true := by
  decide
theorem test_addImm_no_flag :
    ran (withV [(0xF, 0xAA), (1, 0xFF)]) 0x7101 (fun t => t.getV 1 == 0 && t.getV 0xF == 0xAA) = true := by decide
theorem test_ldReg : ran (withV [(2, 0x11)]) 0x8120 (fun t => t.getV 1 == 0x11 && t.getV 2 == 0x11) = true := by decide
theorem test_orReg :
    ran (withV [(0xF, 0xAA), (1, 0x0F), (2, 0xF0)]) 0x8121 (fun t => t.getV 1 == 0xFF && t.getV 0xF == 0xAA) = true := by
  decide
theorem test_andReg :
    ran (withV [(0xF, 0xAA), (1, 0x3C), (2, 0x0F)]) 0x8122 (fun t => t.getV 1 == 0x0C && t.getV 0xF == 0xAA) = true := by
  decide
theorem test_xorReg :
    ran (withV [(0xF, 0xAA), (1, 0x3C), (2, 0x0F)]) 0x8123 (fun t => t.getV 1 == 0x33 && t.getV 0xF == 0xAA) = true := by
  decide
theorem test_addReg_256 :
    ran (withV [(1, 0x80), (2, 0x80)]) 0x8124 (fun t => t.getV 1 == 0 && t.getV 0xF == 1) = true := by decide
theorem test_addReg_old_vf_is_operand :
    ran (withV [(1, 0x10), (0xF, 0x05)]) 0x81F4 (fun t => t.getV 1 == 0x15 && t.getV 0xF == 0) = true := by decide
theorem test_subReg_equal :
    ran (withV [(1, 5), (2, 5)]) 0x8125 (fun t => t.getV 1 == 0 && t.getV 0xF == 1) = true := by decide
theorem test_subReg_into_vf : ran (withV [(0xF, 0xAA), (1, 3)]) 0x8F15 (fun t => t.getV 0xF == 1) = true := by decide
theorem test_shr_vx :
    ran (withV [(1, 6), (2, 0xFF)]) 0x8126 (fun t => t.getV 1 == 3 && t.getV 0xF == 0) = true := by decide
theorem test_shr_vy :
    ran (withCfg (withV [(1, 6), (2, 0xFF)]) { Params.default with shiftSource := .vy }) 0x8126
      (fun t => t.getV 1 == 0x7F && t.getV 0xF == 1) = true := by decide
theorem test_subn_borrow :
    ran (withV [(1, 5), (2, 3)]) 0x8127 (fun t => t.getV 1 == 0xFE && t.getV 0xF == 0) = true := by decide
theorem test_subn_equal :
    ran (withV [(1, 7), (2, 7)]) 0x8127 (fun t => t.getV 1 == 0 && t.getV 0xF == 1) = true := by decide
theorem test_shl : ran (withV [(1, 0xFF)]) 0x810E (fun t => t.getV 1 == 0xFE && t.getV 0xF == 1) = true := by decide
theorem test_shl_into_vf : ran (withV [(0xF, 0x81)]) 0x8F0E (fun t => t.getV 0xF == 1) = true := by decide

/-- §2.3, `C30F` on the draw r = B7. -/
theorem test_rnd :
    (match execRndWith 0xB7 0x3 0x0F (withV [(0xF, 0xAA)]) with
      | .next t => t.getV 3 == 0x07 && t.getV 0xF == 0xAA && t.draws == 1
      | _ => false) = true := by decide

/-- §2.3: the draw is still consumed where the mask is 0. -/
theorem test_rnd_zero_mask :
    (match execRndWith 0xB7 0x3 0x00 (withV [(3, 0x55)]) with
      | .next t => t.getV 3 == 0x00 && t.draws == 1
      | _ => false) = true := by decide

-- §2.4: index register and memory.
theorem test_ldI : ran State.reset 0xA300 (fun t => t.i == 0x0300 && t.pc == 0x202) = true := by decide
theorem test_addI_no_flag :
    ran { withV [(2, 0x02)] with i := 0xFFF } 0xF21E (fun t => t.i == 0x1001 && t.getV 0xF == 0) = true := by decide
theorem test_addI_wraps :
    ran { withV [(2, 0x02), (0xF, 0x55)] with i := 0xFFFF } 0xF21E (fun t => t.i == 0x0001 && t.getV 0xF == 0x55) = true := by
  decide
theorem test_ldF_low_nibble : ran (withV [(3, 0x1A)]) 0xF329 (fun t => t.i == 0x032) = true := by decide
theorem test_ldF_raw :
    ran (withCfg (withV [(3, 0x1A)]) { Params.default with fontDigit := .raw }) 0xF329 (fun t => t.i == 0x082) = true := by
  decide
theorem test_ldB_wraps :
    ran { withV [(0, 0xFE)] with i := 0xFFE } 0xF033 (fun t =>
      t.memRead 0xFFE == 2 && t.memRead 0xFFF == 5 && t.memRead 0x000 == 4 && t.memRead 0x001 == 0x90 && t.i == 0xFFE)
      = true := by decide

/-- 20_memory.md R54: under IGNORE the digit that falls on a font byte is dropped. -/
theorem test_ldB_font_write_dropped :
    ran { withCfg (withV [(0, 0xFE)]) { Params.default with fontWrite := .ignore } with i := 0x04E } 0xF033 (fun t =>
      t.memRead 0x04E == 0x80 && t.memRead 0x04F == 0x80 && t.memRead 0x050 == 4) = true := by decide
theorem test_storeRegs_wraps :
    ran { withV [(0, 1), (1, 2), (2, 3), (3, 4)] with i := 0xFFE } 0xF255 (fun t =>
      t.memRead 0xFFE == 1 && t.memRead 0xFFF == 2 && t.memRead 0x000 == 3 && t.memRead 0x001 == 0x90 && t.i == 0xFFE)
      = true := by decide
theorem test_storeRegs_increment :
    ran { withCfg (withV [(0, 1), (1, 2), (2, 3)]) { Params.default with loadStoreI := .increment } with i := 0x400 } 0xF255
      (fun t => t.memRead 0x400 == 1 && t.memRead 0x402 == 3 && t.memRead 0x403 == 0 && t.i == 0x403) = true := by decide
theorem test_loadRegs_font :
    ran State.reset 0xFF65 (fun t =>
      t.v.toList == [0xF0, 0x90, 0x90, 0x90, 0xF0, 0x20, 0x60, 0x20, 0x20, 0x70, 0xF0, 0x10, 0xF0, 0x80, 0xF0, 0xF0]
        && t.i == 0) = true := by decide
theorem test_loadRegs :
    ran { withBytes (withV [(3, 0x77)]) 0x300 [2, 5, 4, 9] with i := 0x300 } 0xF265 (fun t =>
      t.getV 0 == 2 && t.getV 1 == 5 && t.getV 2 == 4 && t.getV 3 == 0x77) = true := by decide

-- §2.5: the framebuffer.
theorem test_cls :
    ran { State.reset with fb := Vector.replicate 32 0xF0F } 0x00E0 (fun t =>
      pixelsAre t [0, 31] [] && t.out == ⟨.running, true, none⟩) = true := by decide
theorem test_drw_wraps :
    ran { withBytes (withV [(1, 0x3F)]) 0x300 [0xFF] with i := 0x300 } 0xD121 (fun t =>
      pixelsAre t [0, 1] [(63, 0), (0, 0), (1, 0), (2, 0), (3, 0), (4, 0), (5, 0), (6, 0)] && t.getV 0xF == 0
        && t.out.fbChanged) = true := by decide
theorem test_drw_x_is_old_vf :
    ran { withBytes (withV [(0xF, 0x0A)]) 0x300 [0xC0] with
            i := 0x300, fb := (Vector.replicate 32 0).set 0 (BitVec.twoPow 64 11) } 0xDF11 (fun t =>
      pixelsAre t [0] [(10, 0)] && t.getV 0xF == 1) = true := by decide

-- §2.6: timers and keypad.
theorem test_ldVxDt : ran { State.reset with dt := 0x3C } 0xF307 (fun t => t.getV 3 == 0x3C) = true := by decide
theorem test_ldDtVx : ran (withV [(1, 3)]) 0xF115 (fun t => t.dt == 3 && t.st == 0) = true := by decide
theorem test_ldStVx_starts :
    ran (withV [(2, 5)]) 0xF218 (fun t => t.st == 5 && audioSignal State.reset t == some .start) = true := by decide
theorem test_ldStVx_stops :
    ran { State.reset with st := 5 } 0xF218
      (fun t => t.st == 0 && audioSignal { State.reset with st := 5 } t == some .stop) = true := by decide
theorem test_tick :
    (match step { State.reset with dt := 2, st := 1, events := ⟨[.tick], [], 0⟩ } with
      | .next t => t.dt == 1 && t.st == 0 && t.pc == 0x200
      | _ => false) = true := by decide
theorem test_skp : ran { withV [(0, 5)] with keys := 0x0020 } 0xE09E (fun t => t.pc == 0x204) = true := by decide
theorem test_skp_out_of_range :
    ran { withV [(0, 0x1A)] with keys := 0x0400 } 0xE09E (fun t => t.pc == 0x204) = true ∧
    ran { withCfg (withV [(0, 0x1A)]) { Params.default with keyIndex := .outOfRangeReleased } with keys := 0x0400 } 0xE09E
      (fun t => t.pc == 0x202) = true := by decide
theorem test_sknp : ran (withV [(0, 5)]) 0xE0A1 (fun t => t.pc == 0x204) = true := by decide
theorem test_ldVxK_level :
    ran State.reset 0xF00A (fun t => t.out.status == .awaitingKey && t.pc == 0x200 && t.getV 0 == 0) = true ∧
    ran { State.reset with keys := 0x8000 } 0xFF0A (fun t => t.getV 0xF == 0x0F && t.pc == 0x202) = true := by decide

/-- §2.6, the last two rows: EDGE mode latches, then takes the key that is new. -/
theorem test_ldVxK_edge :
    ran { withCfg State.reset { Params.default with keyWaitMode := .edge } with keys := 0x0010 } 0xF00A (fun t =>
      t.out.status == .awaitingKey && t.kwActive && t.kwSnap == 0x0010 && t.pc == 0x200 &&
      ran { t with keys := 0x0050 } 0xF00A (fun u =>
        u.out.status == .running && u.getV 0 == 6 && !u.kwActive && u.pc == 0x202)) = true := by decide

/-- §2.7: the fallback at the top of memory. -/
theorem test_fallback :
    ran { State.reset with pc := 0xFFE } 0x0000 (fun t => t.pc == 0x000 && t.out == ⟨.running, false, some 0⟩) = true := by
  decide

/-! ### Witnesses: states and operands that meet an obligation's hypotheses -/

/-- Reset in EDGE mode. -/
def edgeReset : State := State.resetWith { Params.default with keyWaitMode := .edge }

/-- Reset with writes to the font dropped. -/
def ignoreReset : State := State.resetWith { Params.default with fontWrite := .ignore }

theorem witness_DecodeOfEncodeIsIdentity :
    (Instr.fallback 0x0000).wellFormed = true ∧ (Instr.fallback 0xFFFF).wellFormed = true ∧
    (Instr.drw 0xF 0xF 0xF).wellFormed = true ∧ (Instr.jp 0xFFF).wellFormed = true := by decide

/-- A word of each clause, at the ends of its range. -/
theorem witness_FallbackTakesExactlyTheUnrecognizedWords :
    [0x0000, 0x0FFF, 0x8008, 0x8FFF, 0xE000, 0xEFFF, 0xF000, 0xFFFF].all
      (fun w => decodeWord w == .fallback w) = true ∧
    [0x00E0, 0x00EE, 0x1000, 0x8007, 0x800E, 0xE09E, 0xE0A1, 0xF007, 0xF065].all
      (fun w => !(decodeWord w == .fallback w)) = true := by decide

theorem witness_StepRunsTheDecodedInstruction :
    (State.reset.withFetchWord 16 0x1ABC).events.Gives .step ⟨[], [], 0⟩ ∧
    EventSupply.Gives ⟨[], [.step, .tick], 3⟩ .step ⟨[.tick], [.step, .tick], 3⟩ := ⟨.listed .., .recurring ..⟩

theorem witness_TickCountsDownBothTimers :
    ({ State.reset with events := ⟨[.tick, .step], [], 0⟩, st := 1, dt := 255 } : State).events.Gives .tick ⟨[.step], [], 0⟩ ∧
    ({ State.reset with events := ⟨[], [.tick], 0⟩ } : State).events.Gives .tick ⟨[], [.tick], 0⟩ :=
  ⟨.listed .., .recurring ..⟩

theorem witness_KeyWriteReplacesAllKeys :
    ({ State.reset with events := ⟨[.keysIn 0xFFFF], [], 0⟩ } : State).events.Gives (.keysIn 0xFFFF) ⟨[], [], 0⟩ :=
  .listed ..

/-- Both outcomes: Fx0A with no key waits in LEVEL and in EDGE mode, any other word runs. -/
theorem witness_StepRunsOrAwaitsKey :
    (State.reset.withFetchWord 16 0xF00A).events.Gives .step ⟨[], [], 0⟩ ∧ (State.reset.withFetchWord 16 0xF00A).pc.toNat < 4096 ∧
    ran State.reset 0xF00A (fun t => t.out.status == .awaitingKey) = true ∧
    ran edgeReset 0xF00A (fun t => t.out.status == .awaitingKey) = true ∧
    ran State.reset 0x1ABC (fun t => t.out.status == .running) = true :=
  ⟨.listed .., by decide, by decide, by decide, by decide⟩

/-- The ends of the ranges of `k` and of `j`. -/
theorem witness_EveryInterleavingIsARun :
    0 ≤ [Event.step, .tick, .keysIn 0x0001].length ∧ 3 ≤ [Event.step, .tick, .keysIn 0x0001].length ∧
    0 < [Event.step, .tick, .keysIn 0x0001].length ∧ 2 < [Event.step, .tick, .keysIn 0x0001].length := by decide

theorem witness_RecurringEventsKeepOccurring :
    Event.tick ∈ ({ State.reset with events := ⟨[.step], [.step, .tick], 0⟩ } : State).events.recurring := by decide

/-- A machine that jumps to itself, with a tick before every step. -/
def spinning : State := { State.reset.withFetchWord 16 0x1200 with events := ⟨[], [.tick, .step], 0⟩ }

theorem spinning_returns (n : Nat) : Reaches spinning (2 * n) spinning := by
  induction n with
  | zero => exact (reaches_zero ..).mpr rfl
  | succ n ih => exact (reaches_add spinning spinning (2 * n) 2).mpr ⟨spinning, ih, rfl⟩

theorem witness_FairTicksExpireTheTimersOfAnEndedProgram :
    spinning.pc.toNat < 4096 ∧ decodeWord spinning.fetchWord = .jp (spinning.pc.setWidth 12) ∧ FairTicks spinning :=
  ⟨by decide, by decide, fun n => ⟨2 * n, by omega, spinning, _, spinning_returns n, .recurring ..⟩⟩

/-- A machine in EDGE mode that waits at its Fx0A, with a return address on the stack. -/
def waiting : State :=
  { (edgeReset.withFetchWord 16 0xF30A).push 0xFFE with
    kwActive := true, kwSnap := 0x0010, out := ⟨.awaitingKey, false, none⟩ }

theorem witness_EveryEventKeepsTheInvariant : waiting.Inv ∧ ∃ t, step waiting = .next t :=
  ⟨⟨by decide, by decide, by decide, fun h => absurd h (by decide), fun _ h => absurd h (by simp [waiting]),
    fun _ => ⟨rfl, rfl⟩, fun _ => ⟨0x3, by decide⟩⟩, ⟨_, rfl⟩⟩

theorem witness_FontIsImmutableUnderIgnore :
    ignoreReset.FontIntact ∧ ∃ t, step (ignoreReset.withFetchWord 16 0xF055) = .next t := by
  refine ⟨⟨rfl, by decide⟩, ?_⟩
  exact ⟨_, rfl⟩

theorem witness_ParametersNeverChange : ∃ t, step (State.reset.withFetchWord 16 0xFF55) = .next t := ⟨_, rfl⟩

theorem witness_InstructionsWriteOnlyWhatTheSpecNames : ∃ t, exec (.storeRegs 0xF) State.reset = .next t := ⟨_, rfl⟩

theorem witness_OnlyCallAndRetMoveTheStackPointer :
    (Instr.jp 0x300 ≠ .ret ∧ (∀ nnn, Instr.jp 0x300 ≠ .call nnn) ∧ ∃ t, exec (.jp 0x300) State.reset = .next t) ∧
    ((∀ q, ¬({ State.reset with events := ⟨[.tick], [], 0⟩ } : State).events.Gives .step q) ∧
      ∃ t, step { State.reset with events := ⟨[.tick], [], 0⟩ } = .next t) :=
  ⟨⟨by decide, fun _ h => by injection h, ⟨_, rfl⟩⟩,
   ⟨fun q h => absurd (show Event.tick = .step from congrArg Prod.fst ((gives_iff _ q _).mp h)) (by decide), ⟨_, rfl⟩⟩⟩

theorem witness_OnlyFlagSettersAndDestinationsWriteVF :
    (writesVF (.loadRegs 0xE) = false ∧ ∃ t, exec (.loadRegs 0xE) State.reset = .next t) ∧
    (Instr.shl 0xF 0x1 ∈ [Instr.addReg 0xF 0x1, .subReg 0xF 0x1, .shr 0xF 0x1, .subn 0xF 0x1, .shl 0xF 0x1,
      .drw 0xF 0x1 0x0] ∧ ∃ t, exec (.shl 0xF 0x1) State.reset = .next t) :=
  ⟨⟨by decide, ⟨_, rfl⟩⟩, by decide, ⟨_, rfl⟩⟩

theorem witness_HighIndexBitsAreUnobservable :
    SameButHighIndexBits { State.reset with i := 0x0300 } { State.reset with i := 0xF300 } ∧
    ∃ t, step { State.reset with i := 0x0300 } = .next t :=
  ⟨⟨rfl, by decide⟩, by
    unfold step
    split
    · exact ⟨_, rfl⟩
    · exact ⟨_, rfl⟩
    · exact ⟨_, rfl⟩⟩

theorem witness_EvenTargetsKeepPcEven :
    State.reset.EvenAddresses ∧ EvenTarget (.jpV0 0x300) State.reset ∧
    (∃ t, exec (.jpV0 0x300) State.reset = .next t) ∧ EvenTarget (.call 0xFFE) State.reset ∧
    EvenTarget .ret State.reset :=
  ⟨⟨by decide, by decide⟩, show (_ : Nat) = 0 by decide, ⟨_, rfl⟩, show (_ : Nat) = 0 by decide, trivial⟩

theorem witness_SixteenNestedCallsReturn :
    State.reset.pc.toNat < 4096 ∧ ([] : List Addr).length ≤ 16 ∧ (List.replicate 16 (0x300 : Addr)).length ≤ 16 ∧
    (List.replicate 15 (0x300 : Addr)).length = 15 := by decide

/-- A value in each of the three clauses, at the ends of their ranges. -/
theorem witness_SkipOnKey :
    State.reset.cfg.keyIndex = .lowNibble ∧
    (withCfg (withV [(0, 0x0F)]) { Params.default with keyIndex := .outOfRangeReleased }).cfg.keyIndex
      = .outOfRangeReleased ∧
    ((withV [(0, 0x0F)]).getV 0).toNat < 16 ∧ 16 ≤ ((withV [(0, 0x10)]).getV 0).toNat := by decide

theorem witness_AddAndSubtractSetVF : (0xE : Nibble) ≠ 0xF ∧ (0x0 : Nibble) ≠ 0xF := by decide

/-- Both sources of a shift, with the operand that each names, for a destination other than VF and for VF. -/
theorem witness_ShiftsMoveTheLostBitToVF :
    (0xE : Nibble) ≠ 0xF ∧ State.reset.cfg.shiftSource = .vx ∧ (withV [(0xE, 0x81)]).getV 0xE = 0x81 ∧
    (withV [(0xF, 0x81)]).getV 0xF = 0x81 ∧
    (State.resetWith { Params.default with shiftSource := .vy }).cfg.shiftSource = .vy ∧
    (withV [(1, 0x81)]).getV 0x1 = 0x81 := by decide

theorem witness_FontGlyphAddress :
    State.reset.cfg.fontDigit = .lowNibble ∧
    (State.resetWith { Params.default with fontDigit := .raw }).cfg.fontDigit = .raw := by decide

/-- Addresses of every clause where the three bytes wrap past 0xFFF, and the last font byte under IGNORE. -/
theorem witness_BcdDigitsAreStored :
    (ignoreReset.cfg.fontWrite = .ignore ∧ 0x04F ≤ 0x04F) ∧ 0xFFE = (0xFFE : Word).toNat % 4096 ∧
    0xFFF = ((0xFFE : Word).toNat + 1) % 4096 ∧ 0x000 = ((0xFFE : Word).toNat + 2) % 4096 := by decide

/-- A stored register at each end of the list, a dropped write at the last font byte, an address beside the bytes stored,
and both settings of the index update. -/
theorem witness_RegistersAreStored :
    ((0x0 : Nibble) ≤ 0xF ∧ (0xF : Nibble) ≤ 0xF) ∧
    ¬(State.reset.cfg.fontWrite = .ignore ∧ ((0xFF1 : Word).toNat + (0xF : Nibble).toNat) % 4096 ≤ 0x04F) ∧
    (ignoreReset.cfg.fontWrite = .ignore ∧ 0x104F % 4096 ≤ 0x04F) ∧
    (∀ k : Nibble, k ≤ 0xF → 0x310 % 4096 ≠ ((0x300 : Word).toNat + k.toNat) % 4096) ∧
    State.reset.cfg.loadStoreI = .unchanged ∧
    (State.resetWith { Params.default with loadStoreI := .increment }).cfg.loadStoreI = .increment := by decide

theorem witness_RegistersAreLoaded :
    State.reset.cfg.loadStoreI = .unchanged ∧
    (State.resetWith { Params.default with loadStoreI := .increment }).cfg.loadStoreI = .increment := by decide

theorem witness_FetchSeesTheStoredInstruction :
    State.reset.cfg.fontWrite = .writeThrough ∧ 1 ≤ (0x1 : Nibble).toNat ∧
    ({ State.reset with i := 0x1200 } : State).i.toNat % 4096 = State.reset.pc.toNat % 4096 := by decide

/-- A one-row sprite at the bottom right corner. -/
def cornerSprite : State := { withBytes (withV [(1, 0x3F), (2, 0x1F)]) 0x300 [0x80] with i := 0x300 }

/-- A sprite bit on the last pixel, clear or set before, and a sprite with no rows. -/
theorem witness_DrawXorsTheSpriteAndReportsCollision :
    (SpriteCovers cornerSprite 0x3F 0x1F 1 63 31 ∧ cornerSprite.pixel 63 31 = false) ∧
    (SpriteCovers { cornerSprite with fb := Vector.replicate 32 (BitVec.allOnes 64) } 0x3F 0x1F 1 63 31 ∧
      ({ cornerSprite with fb := Vector.replicate 32 (BitVec.allOnes 64) } : State).pixel 63 31 = true) ∧
    ¬SpriteCovers cornerSprite 0x3F 0x1F 0 63 31 :=
  ⟨⟨⟨0, by decide, 0, by decide, by decide, by decide, by decide⟩, by decide⟩,
   ⟨⟨0, by decide, 0, by decide, by decide, by decide, by decide⟩, by decide⟩,
   fun ⟨_, h, _⟩ => absurd h (Nat.not_lt_zero _)⟩

/-- On a clear screen the second draw collides; on a full one the first does and the second does not. -/
theorem witness_DrawingTwiceRestoresTheScreen :
    (0x1 : Nibble) ≠ 0xF ∧ (0x2 : Nibble) ≠ 0xF ∧
    ran cornerSprite 0xD121 (fun t => ran t 0xD121 (fun u => u.getV 0xF == 1)) = true ∧
    ran { cornerSprite with fb := Vector.replicate 32 (BitVec.allOnes 64) } 0xD121
      (fun t => t.getV 0xF == 1 && ran t 0xD121 (fun u => u.getV 0xF == 0)) = true := by decide

theorem witness_OnlyFx18SignalsAudio :
    (∀ x, Instr.ldDtVx 0x1 ≠ .ldStVx x) ∧ ∃ t, exec (.ldDtVx 0x1) State.reset = .next t :=
  ⟨fun _ h => by injection h, ⟨_, rfl⟩⟩

/-- The timer that reaches 0 at the last tick, the one that does not, and the one that is 0. -/
theorem witness_OneStopSignalPerCountdown :
    stopSignals { State.reset with st := 2 } 2 = 1 ∧ stopSignals { State.reset with st := 2 } 1 = 0 ∧
    stopSignals State.reset 3 = 0 := by decide

theorem witness_KeyWaitUnderLevel :
    State.reset.cfg.keyWaitMode = .level ∧ State.reset.keys = 0 ∧
    ({ State.reset with keys := 0x8001 } : State).keys ≠ 0 := by decide

/-- A state in each of the three clauses: not waiting, waiting with the held key, waiting with a new key. -/
theorem witness_KeyWaitUnderEdge :
    edgeReset.cfg.keyWaitMode = .edge ∧ edgeReset.kwActive = false ∧ waiting.kwActive = true ∧
    ({ waiting with keys := 0x0010 } : State).keys &&& ~~~waiting.kwSnap = 0 ∧
    ({ waiting with keys := 0x8010 } : State).keys &&& ~~~waiting.kwSnap ≠ 0 := by decide

theorem witness_FallbackOnlyEmitsTheDiagnostic : unrecognized 0x0123 = true := by decide

/-- The first and the last byte of the font and of the rest of memory. -/
theorem witness_ResetIsAllZeroWithFontAndPc :
    State.reset = State.resetWith Params.default ∧ State.reset.memRead 0 = 0xF0 ∧ State.reset.memRead 79 = 0x80 ∧
    State.reset.memRead 80 = 0 ∧ State.reset.memRead 4095 = 0 := ⟨rfl, by decide, by decide, by decide, by decide⟩

/-- An empty ROM and the longest one. -/
theorem witness_LaunchPlacesTheRomAt0x200 :
    ([] : List Byte).length ≤ 3584 ∧ (List.replicate 3584 (0x12 : Byte)).length ≤ 3584 ∧
    0x1FF < 0x200 ∧ 0x200 + ([] : List Byte).length ≤ 0x200 :=
  ⟨by decide, (List.length_replicate ..).le, by decide, by decide⟩

theorem witness_OversizeRomIsRejectedOrTruncated :
    3584 < (List.replicate 3585 (0x12 : Byte)).length ∧ Params.default.romOversize = .reject ∧
    ({ Params.default with romOversize := .truncate } : Params).romOversize = .truncate :=
  ⟨(List.length_replicate ..).symm ▸ by decide, rfl, rfl⟩

end Sys2Proof.Tests
end

namespace Sys2Proof.Machine

/-- The word's value in the bytes at `a` and `a + 1`; each read masks its own address (20_memory.md R53). -/
theorem memReadWord_toNat (s : State) (a : Nat) :
    (s.memReadWord a).toNat = 256 * (s.memRead a).toNat + (s.memRead (a + 1)).toNat := by
  rw [State.memReadWord, toNat_append_eq]
  omega

/-- Settles O43: the word's value, with the addresses of both reads reduced modulo 4096 by `memRead_mod`. -/
theorem wordReadIsBigEndianAndWraps : Obligations.WordReadIsBigEndianAndWraps := by
  unfold Obligations.WordReadIsBigEndianAndWraps
  intro s a
  rw [memRead_mod, memRead_mod, memReadWord_toNat]

end Sys2Proof.Machine

/-! SUPPORT. The control transfers and the skips (41_control_flow.md): the words they decode from, what the writes of PC
and of the stack leave unchanged, and the obligations on them. -/

/-! ### Words of the control family (30_encoding.md R71, R72) -/

namespace Sys2Proof

/-! A word spelled with its fields, as a number. -/

theorem byte_word_toNat (a x : Nibble) (kk : Byte) :
    (a ++ x ++ kk : Word).toNat = a.toNat * 4096 + x.toNat * 256 + kk.toNat := by
  simp only [toNat_append_eq]
  omega

theorem nibble_word_toNat (a x y n : Nibble) :
    (a ++ x ++ y ++ n : Word).toNat = a.toNat * 4096 + x.toNat * 256 + y.toNat * 16 + n.toNat := by
  simp only [toNat_append_eq]
  omega

theorem opcode_addr_word (a : Nibble) (nnn : Addr) : (a ++ nnn : Word).toNat / 4096 = a.toNat := by
  rw [toNat_append_eq]
  omega

theorem opcode_byte_word (a x : Nibble) (kk : Byte) : (a ++ x ++ kk : Word).toNat / 4096 = a.toNat := by
  rw [byte_word_toNat]
  omega

theorem opcode_nibble_word (a x y n : Nibble) : (a ++ x ++ y ++ n : Word).toNat / 4096 = a.toNat := by
  rw [nibble_word_toNat]
  omega

theorem fieldNNN_addr_word (a : Nibble) (nnn : Addr) : fieldNNN (a ++ nnn) = nnn := by
  apply BitVec.eq_of_toNat_eq
  rw [fieldNNN_toNat, toNat_append_eq]
  omega

theorem fieldX_byte_word (a x : Nibble) (kk : Byte) : fieldX (a ++ x ++ kk) = x := by
  apply BitVec.eq_of_toNat_eq
  rw [fieldX_toNat, byte_word_toNat]
  omega

theorem fieldKK_byte_word (a x : Nibble) (kk : Byte) : fieldKK (a ++ x ++ kk) = kk := by
  apply BitVec.eq_of_toNat_eq
  rw [fieldKK_toNat, byte_word_toNat]
  omega

theorem fieldX_nibble_word (a x y n : Nibble) : fieldX (a ++ x ++ y ++ n) = x := by
  apply BitVec.eq_of_toNat_eq
  rw [fieldX_toNat, nibble_word_toNat]
  omega

theorem fieldY_nibble_word (a x y n : Nibble) : fieldY (a ++ x ++ y ++ n) = y := by
  apply BitVec.eq_of_toNat_eq
  rw [fieldY_toNat, nibble_word_toNat]
  omega

theorem fieldN_nibble_word (a x y n : Nibble) : fieldN (a ++ x ++ y ++ n) = n := by
  apply BitVec.eq_of_toNat_eq
  rw [fieldN_toNat, nibble_word_toNat]
  omega

section
variable {w : Word}

/-- Rows 1 and 2 are the only ones ahead of those that look at the first nibble, and theirs is 0. -/
theorem toNat_ne_of_opcode_ne_zero (h : w.toNat / 4096 ≠ 0) : w.toNat ≠ 0x00E0 ∧ w.toNat ≠ 0x00EE := by
  omega

theorem decodeWord_of_opcode_one (h : w.toNat / 4096 = 1) : decodeWord w = .jp (fieldNNN w) := by
  simp [decodeWord_eq, h, toNat_ne_of_opcode_ne_zero (w := w) (by omega)]

theorem decodeWord_of_opcode_two (h : w.toNat / 4096 = 2) : decodeWord w = .call (fieldNNN w) := by
  simp [decodeWord_eq, h, toNat_ne_of_opcode_ne_zero (w := w) (by omega)]

theorem decodeWord_of_opcode_three (h : w.toNat / 4096 = 3) : decodeWord w = .seImm (fieldX w) (fieldKK w) := by
  simp [decodeWord_eq, h, toNat_ne_of_opcode_ne_zero (w := w) (by omega)]

theorem decodeWord_of_opcode_four (h : w.toNat / 4096 = 4) : decodeWord w = .sneImm (fieldX w) (fieldKK w) := by
  simp [decodeWord_eq, h, toNat_ne_of_opcode_ne_zero (w := w) (by omega)]

theorem decodeWord_of_opcode_five (h : w.toNat / 4096 = 5) :
    decodeWord w = .seReg (fieldX w) (fieldY w) (fieldN w) := by
  simp [decodeWord_eq, h, toNat_ne_of_opcode_ne_zero (w := w) (by omega)]

theorem decodeWord_of_opcode_nine (h : w.toNat / 4096 = 9) :
    decodeWord w = .sneReg (fieldX w) (fieldY w) (fieldN w) := by
  simp [decodeWord_eq, h, toNat_ne_of_opcode_ne_zero (w := w) (by omega)]

end

theorem decodeWord_jp (nnn : Addr) : decodeWord (0x1#4 ++ nnn) = .jp nnn := by
  rw [decodeWord_of_opcode_one (opcode_addr_word 0x1#4 nnn), fieldNNN_addr_word]

theorem decodeWord_call (nnn : Addr) : decodeWord (0x2#4 ++ nnn) = .call nnn := by
  rw [decodeWord_of_opcode_two (opcode_addr_word 0x2#4 nnn), fieldNNN_addr_word]

theorem decodeWord_seImm (x : Nibble) (kk : Byte) : decodeWord (0x3#4 ++ x ++ kk) = .seImm x kk := by
  rw [decodeWord_of_opcode_three (opcode_byte_word 0x3#4 x kk), fieldX_byte_word, fieldKK_byte_word]

theorem decodeWord_sneImm (x : Nibble) (kk : Byte) : decodeWord (0x4#4 ++ x ++ kk) = .sneImm x kk := by
  rw [decodeWord_of_opcode_four (opcode_byte_word 0x4#4 x kk), fieldX_byte_word, fieldKK_byte_word]

theorem decodeWord_seReg (x y n : Nibble) : decodeWord (0x5#4 ++ x ++ y ++ n) = .seReg x y n := by
  rw [decodeWord_of_opcode_five (opcode_nibble_word 0x5#4 x y n), fieldX_nibble_word, fieldY_nibble_word,
    fieldN_nibble_word]

theorem decodeWord_sneReg (x y n : Nibble) : decodeWord (0x9#4 ++ x ++ y ++ n) = .sneReg x y n := by
  rw [decodeWord_of_opcode_nine (opcode_nibble_word 0x9#4 x y n), fieldX_nibble_word, fieldY_nibble_word,
    fieldN_nibble_word]

end Sys2Proof

/-! ### Frames: what the writes of PC and of the stack leave unchanged, and how frames compose -/

namespace Sys2Proof.Machine

theorem Part.same_trans {p : Part} {s t u : State} (hst : p.same s t) (htu : p.same t u) : p.same s u := by
  cases p
  case v => exact fun r => (htu r).trans (hst r)
  case stack => exact fun k => (htu k).trans (hst k)
  case fb => exact fun col row => (htu col row).trans (hst col row)
  case mem => exact fun a => (htu a).trans (hst a)
  all_goals exact Eq.trans htu hst

/-- Two updates in a row change at most what either of them changes. -/
theorem UnchangedExcept.trans {ps qs : List Part} {s t u : State} (hst : UnchangedExcept ps s t)
    (htu : UnchangedExcept qs t u) : UnchangedExcept (ps ++ qs) s u := fun p hp =>
  Part.same_trans (hst p fun h => hp (List.mem_append_left qs h)) (htu p fun h => hp (List.mem_append_right ps h))

theorem UnchangedExcept.mono {ps qs : List Part} {s t : State} (h : UnchangedExcept ps s t) (hsub : ps ⊆ qs) :
    UnchangedExcept qs s t := fun p hp => h p fun hmem => hp (hsub hmem)

section
variable (s : State)

/-- Any write of PC. -/
theorem withPc_unchangedExcept (a : Word) : UnchangedExcept [.pc] s { s with pc := a } := by
  intro p hp
  cases p
  case pc => exact absurd (List.mem_singleton_self _) hp
  case v => exact getV_congr rfl
  case stack => exact slot_congr rfl
  case fb => exact pixel_congr rfl
  case mem => exact memRead_congr rfl rfl
  all_goals rfl

theorem setPc_unchangedExcept (w : Word) : UnchangedExcept [.pc] s (s.setPc w) := withPc_unchangedExcept s _

theorem skipIf_unchangedExcept (c : Bool) : UnchangedExcept [.pc] s (s.skipIf c) := by
  rw [skipIf_eq]
  exact withPc_unchangedExcept s _

theorem push_unchangedExcept (a : Word) : UnchangedExcept [.sp, .stack] s (s.push a) := by
  intro p hp
  cases p
  case sp => exact absurd (by decide) hp
  case stack => exact absurd (by decide) hp
  case v => exact getV_congr (push_v s a)
  case fb => exact pixel_congr (push_fb s a)
  case mem => exact memRead_congr (push_mem s a) (push_cfg s a)
  all_goals rfl

theorem pop_unchangedExcept : UnchangedExcept [.sp] s s.pop := by
  intro p hp
  cases p
  case sp => exact absurd (List.mem_singleton_self _) hp
  case v => exact getV_congr (pop_v s)
  case stack => exact slot_congr (pop_stack s)
  case fb => exact pixel_congr (pop_fb s)
  case mem => exact memRead_congr (pop_mem s) (pop_cfg s)
  all_goals rfl

theorem withOut_unchangedExcept (o : Outputs) : UnchangedExcept [.out] s { s with out := o } := by
  intro p hp
  cases p
  case out => exact absurd (List.mem_singleton_self _) hp
  case v => exact getV_congr rfl
  case stack => exact slot_congr rfl
  case fb => exact pixel_congr rfl
  case mem => exact memRead_congr rfl rfl
  all_goals rfl

/-- A jump target of 12 bits passes the mask of a PC write unchanged. -/
theorem setPc_addrWord_pc_toNat (nnn : Addr) : (s.setPc (addrWord nnn)).pc.toNat = nnn.toNat := by
  rw [setPc_pc_toNat, addrWord_toNat, Nat.mod_eq_of_lt nnn.isLt]

/-! ### The meanings of the control family, and how they complete -/

theorem exec_ret : exec .ret s = running (s.setPc (s.slot s.sp)).pop := rfl

theorem exec_jp (nnn : Addr) : exec (.jp nnn) s = running (s.setPc (addrWord nnn)) := rfl

theorem exec_call (nnn : Addr) : exec (.call nnn) s = running ((s.push s.pc).setPc (addrWord nnn)) := rfl

theorem exec_seImm (x : Nibble) (kk : Byte) : exec (.seImm x kk) s = running (s.skipIf (s.getV x == kk)) := rfl

theorem exec_sneImm (x : Nibble) (kk : Byte) : exec (.sneImm x kk) s = running (s.skipIf (s.getV x != kk)) := rfl

theorem exec_seReg (x y n : Nibble) : exec (.seReg x y n) s = running (s.skipIf (s.getV x == s.getV y)) := rfl

theorem exec_sneReg (x y n : Nibble) : exec (.sneReg x y n) s = running (s.skipIf (s.getV x != s.getV y)) := rfl

variable {s} {i : Instr}

/-- An instruction that ends with `running u` completes with what `u` changes; the quiet outputs come on top. -/
theorem completes_of_running {u : State} {ps : List Part} {post : State → Prop} (hexec : exec i s = running u)
    (hframe : UnchangedExcept ps s u) (hpost : post { u with out := Outputs.quiet }) :
    Completes i s ps Outputs.quiet post :=
  ⟨_, hexec, (hframe.trans (withOut_unchangedExcept u _)).mono (by simp), rfl, hpost⟩

/-- A skip on the condition `P` (40_execution_cycle.md R92): PC alone changes, by 2 modulo 4096 if `P` holds. -/
theorem completes_of_skipIf {c : Bool} {P : Prop} [Decidable P] (hexec : exec i s = running (s.skipIf c))
    (hc : c = true ↔ P) :
    Completes i s [.pc] Outputs.quiet fun t =>
      t.pc.toNat = if P then (s.pc.toNat + 2) % 4096 else s.pc.toNat := by
  refine completes_of_running hexec (skipIf_unchangedExcept s c) ?_
  simp only [skipIf_pc_toNat, hc]

end

/-! ### The obligations of the control family -/

/-- Settles O23: PC takes `nnn`, which the mask of a PC write leaves as it is. -/
theorem jumpSetsPc : Obligations.JumpSetsPc := by
  unfold Obligations.JumpSetsPc
  intro s nnn
  refine ⟨decodeWord_jp nnn, completes_of_running (exec_jp s nnn) (setPc_unchangedExcept s _) ?_⟩
  exact setPc_addrWord_pc_toNat s nnn

/-- Settles O25: the frame of the push and that of the jump compose, and `slot_push` says which slot is written. -/
theorem callPushesThePc : Obligations.CallPushesThePc := by
  unfold Obligations.CallPushesThePc
  intro s nnn
  have hframe : UnchangedExcept [.pc, .sp, .stack] s ((s.push s.pc).setPc (addrWord nnn)) :=
    ((push_unchangedExcept s s.pc).trans (setPc_unchangedExcept _ _)).mono (by decide)
  refine ⟨decodeWord_call nnn, completes_of_running (exec_call s nnn) hframe ?_⟩
  refine ⟨setPc_addrWord_pc_toNat (s.push s.pc) nnn, succ_nibble_toNat s.sp, fun k => ?_⟩
  have hslot : k = s.sp + 1 ↔ k.toNat = (s.sp.toNat + 1) % 16 := by
    rw [← BitVec.toNat_inj, succ_nibble_toNat]
  simp only [← hslot]
  exact slot_push s k s.pc

/-- Settles O26: the popped slot goes through the mask of a PC write, and the pop writes SP alone. -/
theorem retPopsThePc : Obligations.RetPopsThePc := by
  unfold Obligations.RetPopsThePc
  intro s
  have hframe : UnchangedExcept [.pc, .sp] s (s.setPc (s.slot s.sp)).pop :=
    (setPc_unchangedExcept s _).trans (pop_unchangedExcept _)
  refine ⟨rfl, completes_of_running (exec_ret s) hframe ?_⟩
  exact ⟨setPc_pc_toNat s (s.slot s.sp), pred_nibble_toNat s.sp⟩

/-- Settles O28: both instructions are skips, on equality and on its negation. -/
theorem skipOnImmediate : Obligations.SkipOnImmediate := by
  unfold Obligations.SkipOnImmediate
  intro s x kk
  constructor
  · exact ⟨decodeWord_seImm x kk, completes_of_skipIf (exec_seImm s x kk) beq_iff_eq⟩
  · exact ⟨decodeWord_sneImm x kk, completes_of_skipIf (exec_sneImm s x kk) bne_iff_ne⟩

/-- Settles O29: as for the immediates; no meaning reads `n`. -/
theorem skipOnRegisters : Obligations.SkipOnRegisters := by
  unfold Obligations.SkipOnRegisters
  intro s x y n
  constructor
  · exact ⟨decodeWord_seReg x y n, completes_of_skipIf (exec_seReg s x y n) beq_iff_eq⟩
  · exact ⟨decodeWord_sneReg x y n, completes_of_skipIf (exec_sneReg s x y n) bne_iff_ne⟩

end Sys2Proof.Machine

/-! SUPPORT. The 8-bit ALU instructions that set no flag (42_alu.md R122 to R127): the words they decode from, the frame of
a register write, and the obligations on them. -/

/-! ### Words of the ALU family (30_encoding.md R71, R72) -/

namespace Sys2Proof

theorem last_nibble_word (a x y n : Nibble) : (a ++ x ++ y ++ n : Word).toNat % 16 = n.toNat := by
  rw [nibble_word_toNat]
  omega

section
variable {w : Word}

theorem decodeWord_of_opcode_six (h : w.toNat / 4096 = 6) : decodeWord w = .ldImm (fieldX w) (fieldKK w) := by
  simp [decodeWord_eq, h, toNat_ne_of_opcode_ne_zero (w := w) (by omega)]

theorem decodeWord_of_opcode_seven (h : w.toNat / 4096 = 7) : decodeWord w = .addImm (fieldX w) (fieldKK w) := by
  simp [decodeWord_eq, h, toNat_ne_of_opcode_ne_zero (w := w) (by omega)]

/-- The rows with first nibble 8: the last nibble selects the operation. -/
theorem decodeWord_of_opcode_eight (h : w.toNat / 4096 = 8) :
    decodeWord w =
      if w.toNat % 16 = 0x0 then .ldReg (fieldX w) (fieldY w)
      else if w.toNat % 16 = 0x1 then .orReg (fieldX w) (fieldY w)
      else if w.toNat % 16 = 0x2 then .andReg (fieldX w) (fieldY w)
      else if w.toNat % 16 = 0x3 then .xorReg (fieldX w) (fieldY w)
      else if w.toNat % 16 = 0x4 then .addReg (fieldX w) (fieldY w)
      else if w.toNat % 16 = 0x5 then .subReg (fieldX w) (fieldY w)
      else if w.toNat % 16 = 0x6 then .shr (fieldX w) (fieldY w)
      else if w.toNat % 16 = 0x7 then .subn (fieldX w) (fieldY w)
      else if w.toNat % 16 = 0xE then .shl (fieldX w) (fieldY w)
      else .fallback w := by
  simp [decodeWord_eq, h, toNat_ne_of_opcode_ne_zero (w := w) (by omega)]

end

theorem decodeWord_ldImm (x : Nibble) (kk : Byte) : decodeWord (0x6#4 ++ x ++ kk) = .ldImm x kk := by
  rw [decodeWord_of_opcode_six (opcode_byte_word 0x6#4 x kk), fieldX_byte_word, fieldKK_byte_word]

theorem decodeWord_addImm (x : Nibble) (kk : Byte) : decodeWord (0x7#4 ++ x ++ kk) = .addImm x kk := by
  rw [decodeWord_of_opcode_seven (opcode_byte_word 0x7#4 x kk), fieldX_byte_word, fieldKK_byte_word]

/-- The decoding of a word `8xyN`, as a choice on `N`. -/
theorem decodeWord_alu_word (x y n : Nibble) :
    decodeWord (0x8#4 ++ x ++ y ++ n) =
      if n.toNat = 0x0 then .ldReg x y
      else if n.toNat = 0x1 then .orReg x y
      else if n.toNat = 0x2 then .andReg x y
      else if n.toNat = 0x3 then .xorReg x y
      else if n.toNat = 0x4 then .addReg x y
      else if n.toNat = 0x5 then .subReg x y
      else if n.toNat = 0x6 then .shr x y
      else if n.toNat = 0x7 then .subn x y
      else if n.toNat = 0xE then .shl x y
      else .fallback (0x8#4 ++ x ++ y ++ n) := by
  rw [decodeWord_of_opcode_eight (opcode_nibble_word 0x8#4 x y n), last_nibble_word, fieldX_nibble_word,
    fieldY_nibble_word]

theorem decodeWord_ldReg (x y : Nibble) : decodeWord (0x8#4 ++ x ++ y ++ 0x0#4) = .ldReg x y :=
  decodeWord_alu_word x y 0x0

theorem decodeWord_orReg (x y : Nibble) : decodeWord (0x8#4 ++ x ++ y ++ 0x1#4) = .orReg x y :=
  decodeWord_alu_word x y 0x1

theorem decodeWord_andReg (x y : Nibble) : decodeWord (0x8#4 ++ x ++ y ++ 0x2#4) = .andReg x y :=
  decodeWord_alu_word x y 0x2

theorem decodeWord_xorReg (x y : Nibble) : decodeWord (0x8#4 ++ x ++ y ++ 0x3#4) = .xorReg x y :=
  decodeWord_alu_word x y 0x3

end Sys2Proof

/-! ### The frame of a register write, and how an instruction that makes one completes -/

namespace Sys2Proof.Machine

section
variable (s : State)

theorem setV_unchangedExcept (x : Nibble) (b : Byte) : UnchangedExcept [.v] s (s.setV x b) := by
  intro p hp
  cases p
  case v => exact absurd (List.mem_singleton_self _) hp
  case stack => exact slot_congr (setV_stack s x b)
  case fb => exact pixel_congr (setV_fb s x b)
  case mem => exact memRead_congr (setV_mem s x b) (setV_cfg s x b)
  all_goals rfl

/-! ### The meanings of the ALU instructions that set no flag -/

theorem exec_ldImm (x : Nibble) (kk : Byte) : exec (.ldImm x kk) s = running (s.setV x kk) := rfl

theorem exec_addImm (x : Nibble) (kk : Byte) : exec (.addImm x kk) s = running (s.setV x (s.getV x + kk)) := rfl

theorem exec_ldReg (x y : Nibble) : exec (.ldReg x y) s = running (s.setV x (s.getV y)) := rfl

theorem exec_orReg (x y : Nibble) : exec (.orReg x y) s = running (s.setV x (s.getV x ||| s.getV y)) := rfl

theorem exec_andReg (x y : Nibble) : exec (.andReg x y) s = running (s.setV x (s.getV x &&& s.getV y)) := rfl

theorem exec_xorReg (x y : Nibble) : exec (.xorReg x y) s = running (s.setV x (s.getV x ^^^ s.getV y)) := rfl

variable {s} {i : Instr} {x : Nibble} {b : Byte}

/-- An instruction that ends with a write of V[x]: it changes that register and no other. -/
theorem completes_of_setV (hexec : exec i s = running (s.setV x b)) :
    Completes i s [.v] Outputs.quiet fun t => ∀ r, t.getV r = if r = x then b else s.getV r :=
  completes_of_running hexec (setV_unchangedExcept s x b) fun r => getV_setV s x r b

theorem Completes.imp {ps : List Part} {o : Outputs} {post post' : State → Prop} (h : Completes i s ps o post)
    (himp : ∀ t, post t → post' t) : Completes i s ps o post' := by
  obtain ⟨t, hexec, hframe, hout, hpost⟩ := h
  exact ⟨t, hexec, hframe, hout, himp t hpost⟩

/-- `completes_of_setV` with what is said of V[x] apart from the other registers, which are kept. -/
theorem completes_of_setV_result {post : State → Prop} (hexec : exec i s = running (s.setV x b))
    (hpost : ∀ t, t.getV x = b → post t) :
    Completes i s [.v] Outputs.quiet fun t => post t ∧ ∀ r, r ≠ x → t.getV r = s.getV r :=
  (completes_of_setV hexec).imp fun t h =>
    ⟨hpost t ((h x).trans (if_pos rfl)), fun r hr => (h r).trans (if_neg hr)⟩

end

/-! ### The obligations of the ALU family -/

/-- Settles O31: both instructions are one register write, of the immediate and of V[y]. -/
theorem loadRegister : Obligations.LoadRegister := by
  unfold Obligations.LoadRegister
  intro s x y kk
  constructor
  · exact ⟨decodeWord_ldImm x kk, completes_of_setV (exec_ldImm s x kk)⟩
  · exact ⟨decodeWord_ldReg x y, completes_of_setV (exec_ldReg s x y)⟩

/-- Settles O32: the one register written is V[x], and addition of bytes is addition modulo 256. -/
theorem addImmediateSetsNoFlag : Obligations.AddImmediateSetsNoFlag := by
  unfold Obligations.AddImmediateSetsNoFlag
  intro s x kk
  refine ⟨decodeWord_addImm x kk, completes_of_setV_result (exec_addImm s x kk) fun t ht => ?_⟩
  rw [ht, BitVec.toNat_add]

/-- Settles O33: the one register written is V[x], and each bit of the result is that of the operands' bits. -/
theorem bitwiseOperations : Obligations.BitwiseOperations := by
  unfold Obligations.BitwiseOperations
  intro s x y
  refine ⟨⟨decodeWord_orReg x y, completes_of_setV_result (exec_orReg s x y) fun t ht k => ?or⟩,
    ⟨decodeWord_andReg x y, completes_of_setV_result (exec_andReg s x y) fun t ht k => ?and⟩,
    ⟨decodeWord_xorReg x y, completes_of_setV_result (exec_xorReg s x y) fun t ht k => ?xor⟩⟩
  case or => rw [ht, BitVec.getLsbD_or]
  case and => rw [ht, BitVec.getLsbD_and]
  case xor => rw [ht, BitVec.getLsbD_xor]

end Sys2Proof.Machine

/-! SUPPORT. The load of the index register (43_index_memory.md R141): the word it decodes from, what a write of I leaves
unchanged, and the obligation on it. -/

namespace Sys2Proof

theorem decodeWord_of_opcode_ten {w : Word} (h : w.toNat / 4096 = 10) : decodeWord w = .ldI (fieldNNN w) := by
  simp [decodeWord_eq, h, toNat_ne_of_opcode_ne_zero (w := w) (by omega)]

theorem decodeWord_ldI (nnn : Addr) : decodeWord (0xA#4 ++ nnn) = .ldI nnn := by
  rw [decodeWord_of_opcode_ten (opcode_addr_word 0xA#4 nnn), fieldNNN_addr_word]

end Sys2Proof

namespace Sys2Proof.Machine

theorem setI_unchangedExcept (s : State) (a : Word) : UnchangedExcept [.i] s (s.setI a) := by
  intro p hp
  cases p
  case i => exact absurd (List.mem_singleton_self _) hp
  case v => exact getV_congr (setI_v s a)
  case stack => exact slot_congr (setI_stack s a)
  case fb => exact pixel_congr (setI_fb s a)
  case mem => exact memRead_congr (setI_mem s a) (setI_cfg s a)
  all_goals rfl

theorem exec_ldI (s : State) (nnn : Addr) : exec (.ldI nnn) s = running (s.setI (addrWord nnn)) := rfl

/-- Settles O37: the one write is that of I, and widening `nnn` to a word keeps its value. -/
theorem loadIndex : Obligations.LoadIndex := by
  unfold Obligations.LoadIndex
  intro s nnn
  exact ⟨decodeWord_ldI nnn,
    completes_of_running (exec_ldI s nnn) (setI_unchangedExcept s _) (addrWord_toNat nnn)⟩

end Sys2Proof.Machine

/-! SUPPORT. The display instructions (44_display.md R160, R161): how one of them completes, what clearing the screen leaves
unchanged, and the obligation on CLS. -/

namespace Sys2Proof.Machine

/-- The display's form of `completes_of_running`: what comes on top of the changes of `u` asserts `fb_changed` (R160). -/
theorem completes_of_runningDrawn {s u : State} {i : Instr} {ps : List Part} {post : State → Prop}
    (hexec : exec i s = runningDrawn u) (hframe : UnchangedExcept ps s u)
    (hpost : post { u with out := ⟨.running, true, none⟩ }) :
    Completes i s ps ⟨.running, true, none⟩ post :=
  ⟨_, hexec, (hframe.trans (withOut_unchangedExcept u _)).mono (by simp), rfl, hpost⟩

theorem clearScreen_unchangedExcept (s : State) : UnchangedExcept [.fb] s s.clearScreen := by
  intro p hp
  cases p
  case fb => exact absurd (List.mem_singleton_self _) hp
  case v => exact getV_congr (clearScreen_v s)
  case stack => exact slot_congr (clearScreen_stack s)
  case mem => exact memRead_congr (clearScreen_mem s) (clearScreen_cfg s)
  all_goals rfl

theorem exec_cls (s : State) : exec .cls s = runningDrawn s.clearScreen := rfl

/-- Settles O45: the one write is the clear, after which `pixel_clearScreen` reads every pixel as clear. -/
theorem clearScreenClearsEveryPixel : Obligations.ClearScreenClearsEveryPixel := by
  unfold Obligations.ClearScreenClearsEveryPixel
  intro s
  exact ⟨rfl, completes_of_runningDrawn (exec_cls s) (clearScreen_unchangedExcept s) (pixel_clearScreen s)⟩

end Sys2Proof.Machine

/-! SUPPORT. The transfers between a register and the delay timer (45_timers_keypad.md R170, R171): the words they decode
from, what a write of DT leaves unchanged, and the obligation on them. -/

namespace Sys2Proof

theorem last_byte_word (a x : Nibble) (kk : Byte) : (a ++ x ++ kk : Word).toNat % 256 = kk.toNat := by
  rw [byte_word_toNat]
  omega

/-- The rows with first nibble F: the last byte selects the operation. -/
theorem decodeWord_of_opcode_fifteen {w : Word} (h : w.toNat / 4096 = 15) :
    decodeWord w =
      if w.toNat % 256 = 0x07 then .ldVxDt (fieldX w)
      else if w.toNat % 256 = 0x0A then .ldVxK (fieldX w)
      else if w.toNat % 256 = 0x15 then .ldDtVx (fieldX w)
      else if w.toNat % 256 = 0x18 then .ldStVx (fieldX w)
      else if w.toNat % 256 = 0x1E then .addI (fieldX w)
      else if w.toNat % 256 = 0x29 then .ldF (fieldX w)
      else if w.toNat % 256 = 0x33 then .ldB (fieldX w)
      else if w.toNat % 256 = 0x55 then .storeRegs (fieldX w)
      else if w.toNat % 256 = 0x65 then .loadRegs (fieldX w)
      else .fallback w := by
  simp [decodeWord_eq, h, toNat_ne_of_opcode_ne_zero (w := w) (by omega)]

/-- The decoding of a word `Fxkk`, as a choice on `kk`. -/
theorem decodeWord_misc_word (x : Nibble) (kk : Byte) :
    decodeWord (0xF#4 ++ x ++ kk) =
      if kk.toNat = 0x07 then .ldVxDt x
      else if kk.toNat = 0x0A then .ldVxK x
      else if kk.toNat = 0x15 then .ldDtVx x
      else if kk.toNat = 0x18 then .ldStVx x
      else if kk.toNat = 0x1E then .addI x
      else if kk.toNat = 0x29 then .ldF x
      else if kk.toNat = 0x33 then .ldB x
      else if kk.toNat = 0x55 then .storeRegs x
      else if kk.toNat = 0x65 then .loadRegs x
      else .fallback (0xF#4 ++ x ++ kk) := by
  rw [decodeWord_of_opcode_fifteen (opcode_byte_word 0xF#4 x kk), last_byte_word, fieldX_byte_word]

theorem decodeWord_ldVxDt (x : Nibble) : decodeWord (0xF#4 ++ x ++ 0x07#8) = .ldVxDt x :=
  decodeWord_misc_word x 0x07

theorem decodeWord_ldDtVx (x : Nibble) : decodeWord (0xF#4 ++ x ++ 0x15#8) = .ldDtVx x :=
  decodeWord_misc_word x 0x15

end Sys2Proof

namespace Sys2Proof.Machine

theorem withDt_unchangedExcept (s : State) (b : Byte) : UnchangedExcept [.dt] s { s with dt := b } := by
  intro p hp
  cases p
  case dt => exact absurd (List.mem_singleton_self _) hp
  case v => exact getV_congr rfl
  case stack => exact slot_congr rfl
  case fb => exact pixel_congr rfl
  case mem => exact memRead_congr rfl rfl
  all_goals rfl

theorem exec_ldVxDt (s : State) (x : Nibble) : exec (.ldVxDt x) s = running (s.setV x s.dt) := rfl

theorem exec_ldDtVx (s : State) (x : Nibble) : exec (.ldDtVx x) s = running { s with dt := s.getV x } := rfl

/-- Settles O48: Fx07 is one register write, of DT, and Fx15 one write of DT, of V[x]. -/
theorem delayTimerTransfers : Obligations.DelayTimerTransfers := by
  unfold Obligations.DelayTimerTransfers
  intro s x
  constructor
  · exact ⟨decodeWord_ldVxDt x, completes_of_setV (exec_ldVxDt s x)⟩
  · exact ⟨decodeWord_ldDtVx x, completes_of_running (exec_ldDtVx s x) (withDt_unchangedExcept s _) rfl⟩

end Sys2Proof.Machine

/-! SUPPORT. The fallback (46_fallback.md R190): the unrecognized words as numbers, what they decode to, and the obligation
on them. -/

namespace Sys2Proof

section
variable {w : Word}

/-- 30_encoding.md R77 on the number of the word, by its first nibble and its last nibble or byte. -/
theorem unrecognized_iff :
    unrecognized w = true ↔
      (w.toNat / 4096 = 0x0 ∧ w.toNat ≠ 0x00E0 ∧ w.toNat ≠ 0x00EE) ∨
      (w.toNat / 4096 = 0x8 ∧ w.toNat % 16 ∈ [0x8, 0x9, 0xA, 0xB, 0xC, 0xD, 0xF]) ∨
      (w.toNat / 4096 = 0xE ∧ w.toNat % 256 ≠ 0x9E ∧ w.toNat % 256 ≠ 0xA1) ∨
      (w.toNat / 4096 = 0xF ∧ w.toNat % 256 ∉ [0x07, 0x0A, 0x15, 0x18, 0x1E, 0x29, 0x33, 0x55, 0x65]) := by
  have hop : (w.extractLsb' 12 4).toNat = w.toNat / 4096 := by
    have := w.isLt
    rw [BitVec.extractLsb'_toNat, Nat.shiftRight_eq_div_pow]
    omega
  have hn : (w.extractLsb' 0 4).toNat = w.toNat % 16 := fieldN_toNat w
  have hkk : (w.extractLsb' 0 8).toNat = w.toNat % 256 := fieldKK_toNat w
  simp [unrecognized, ← BitVec.toNat_inj, hop, hn, hkk, or_assoc]

theorem decodeWord_of_opcode_zero (h : w.toNat / 4096 = 0) :
    decodeWord w = if w.toNat = 0x00E0 then .cls else if w.toNat = 0x00EE then .ret else .fallback w := by
  simp [decodeWord_eq, h]

/-- The rows with first nibble E: the last byte selects the condition on the key. -/
theorem decodeWord_of_opcode_fourteen (h : w.toNat / 4096 = 14) :
    decodeWord w =
      if w.toNat % 256 = 0x9E then .skp (fieldX w)
      else if w.toNat % 256 = 0xA1 then .sknp (fieldX w)
      else .fallback w := by
  simp [decodeWord_eq, h, toNat_ne_of_opcode_ne_zero (w := w) (by omega)]

/-- No row of the word's own first nibble takes it, so row 35 does. -/
theorem decodeWord_of_unrecognized (h : unrecognized w = true) : decodeWord w = .fallback w := by
  obtain ⟨hop, hcls, hret⟩ | ⟨hop, hn⟩ | ⟨hop, hskp, hsknp⟩ | ⟨hop, hkk⟩ := unrecognized_iff.mp h
  · rw [decodeWord_of_opcode_zero hop, if_neg hcls, if_neg hret]
  · rw [decodeWord_of_opcode_eight hop]
    simp only [List.mem_cons, List.not_mem_nil, or_false] at hn
    obtain hn | hn | hn | hn | hn | hn | hn := hn <;> simp [hn]
  · rw [decodeWord_of_opcode_fourteen hop, if_neg hskp, if_neg hsknp]
  · rw [decodeWord_of_opcode_fifteen hop]
    simp only [List.mem_cons, List.not_mem_nil, not_or] at hkk
    simp [hkk]

end

end Sys2Proof

namespace Sys2Proof.Machine

theorem exec_fallback (s : State) (w : Word) :
    exec (.fallback w) s = .next { s with out := ⟨.running, false, some w⟩ } := rfl

/-- Settles O55: `decodeWord_of_unrecognized`, and the one write of the fallback is that of the outputs. -/
theorem fallbackOnlyEmitsTheDiagnostic : Obligations.FallbackOnlyEmitsTheDiagnostic := by
  unfold Obligations.FallbackOnlyEmitsTheDiagnostic
  intro s w
  exact ⟨decodeWord_of_unrecognized, _, exec_fallback s w, withOut_unchangedExcept s _, rfl, trivial⟩

end Sys2Proof.Machine

/-! SUPPORT. The decoder as a whole (30_encoding.md R71 to R77): the words of the instructions that no section above
decodes, decoding after encoding and encoding after decoding, the words of the fallback, and that no word meets two rows. -/

namespace Sys2Proof

/-! ### Words of the remaining instructions (30_encoding.md R71, R72) -/

section
variable {w : Word}

theorem decodeWord_of_opcode_eleven (h : w.toNat / 4096 = 11) : decodeWord w = .jpV0 (fieldNNN w) := by
  simp [decodeWord_eq, h, toNat_ne_of_opcode_ne_zero (w := w) (by omega)]

theorem decodeWord_of_opcode_twelve (h : w.toNat / 4096 = 12) : decodeWord w = .rnd (fieldX w) (fieldKK w) := by
  simp [decodeWord_eq, h, toNat_ne_of_opcode_ne_zero (w := w) (by omega)]

theorem decodeWord_of_opcode_thirteen (h : w.toNat / 4096 = 13) :
    decodeWord w = .drw (fieldX w) (fieldY w) (fieldN w) := by
  simp [decodeWord_eq, h, toNat_ne_of_opcode_ne_zero (w := w) (by omega)]

end

theorem decodeWord_addReg (x y : Nibble) : decodeWord (0x8#4 ++ x ++ y ++ 0x4#4) = .addReg x y :=
  decodeWord_alu_word x y 0x4

theorem decodeWord_subReg (x y : Nibble) : decodeWord (0x8#4 ++ x ++ y ++ 0x5#4) = .subReg x y :=
  decodeWord_alu_word x y 0x5

theorem decodeWord_shr (x y : Nibble) : decodeWord (0x8#4 ++ x ++ y ++ 0x6#4) = .shr x y :=
  decodeWord_alu_word x y 0x6

theorem decodeWord_subn (x y : Nibble) : decodeWord (0x8#4 ++ x ++ y ++ 0x7#4) = .subn x y :=
  decodeWord_alu_word x y 0x7

theorem decodeWord_shl (x y : Nibble) : decodeWord (0x8#4 ++ x ++ y ++ 0xE#4) = .shl x y :=
  decodeWord_alu_word x y 0xE

theorem decodeWord_jpV0 (nnn : Addr) : decodeWord (0xB#4 ++ nnn) = .jpV0 nnn := by
  rw [decodeWord_of_opcode_eleven (opcode_addr_word 0xB#4 nnn), fieldNNN_addr_word]

theorem decodeWord_rnd (x : Nibble) (kk : Byte) : decodeWord (0xC#4 ++ x ++ kk) = .rnd x kk := by
  rw [decodeWord_of_opcode_twelve (opcode_byte_word 0xC#4 x kk), fieldX_byte_word, fieldKK_byte_word]

theorem decodeWord_drw (x y n : Nibble) : decodeWord (0xD#4 ++ x ++ y ++ n) = .drw x y n := by
  rw [decodeWord_of_opcode_thirteen (opcode_nibble_word 0xD#4 x y n), fieldX_nibble_word, fieldY_nibble_word,
    fieldN_nibble_word]

/-- The decoding of a word `Exkk`, as a choice on `kk`. -/
theorem decodeWord_key_word (x : Nibble) (kk : Byte) :
    decodeWord (0xE#4 ++ x ++ kk) =
      if kk.toNat = 0x9E then .skp x else if kk.toNat = 0xA1 then .sknp x else .fallback (0xE#4 ++ x ++ kk) := by
  rw [decodeWord_of_opcode_fourteen (opcode_byte_word 0xE#4 x kk), last_byte_word, fieldX_byte_word]

theorem decodeWord_skp (x : Nibble) : decodeWord (0xE#4 ++ x ++ 0x9E#8) = .skp x := decodeWord_key_word x 0x9E

theorem decodeWord_sknp (x : Nibble) : decodeWord (0xE#4 ++ x ++ 0xA1#8) = .sknp x := decodeWord_key_word x 0xA1

theorem decodeWord_ldVxK (x : Nibble) : decodeWord (0xF#4 ++ x ++ 0x0A#8) = .ldVxK x := decodeWord_misc_word x 0x0A

theorem decodeWord_ldStVx (x : Nibble) : decodeWord (0xF#4 ++ x ++ 0x18#8) = .ldStVx x := decodeWord_misc_word x 0x18

theorem decodeWord_addI (x : Nibble) : decodeWord (0xF#4 ++ x ++ 0x1E#8) = .addI x := decodeWord_misc_word x 0x1E

theorem decodeWord_ldF (x : Nibble) : decodeWord (0xF#4 ++ x ++ 0x29#8) = .ldF x := decodeWord_misc_word x 0x29

theorem decodeWord_ldB (x : Nibble) : decodeWord (0xF#4 ++ x ++ 0x33#8) = .ldB x := decodeWord_misc_word x 0x33

theorem decodeWord_storeRegs (x : Nibble) : decodeWord (0xF#4 ++ x ++ 0x55#8) = .storeRegs x :=
  decodeWord_misc_word x 0x55

theorem decodeWord_loadRegs (x : Nibble) : decodeWord (0xF#4 ++ x ++ 0x65#8) = .loadRegs x :=
  decodeWord_misc_word x 0x65

/-! ### Decoding after encoding -/

theorem decodeWord_encode (i : Instr) (h : i.wellFormed = true) : decodeWord (encode i) = i := by
  cases i with
  | cls => rfl
  | ret => rfl
  | jp nnn => exact decodeWord_jp nnn
  | call nnn => exact decodeWord_call nnn
  | seImm x kk => exact decodeWord_seImm x kk
  | sneImm x kk => exact decodeWord_sneImm x kk
  | seReg x y n => exact decodeWord_seReg x y n
  | ldImm x kk => exact decodeWord_ldImm x kk
  | addImm x kk => exact decodeWord_addImm x kk
  | ldReg x y => exact decodeWord_ldReg x y
  | orReg x y => exact decodeWord_orReg x y
  | andReg x y => exact decodeWord_andReg x y
  | xorReg x y => exact decodeWord_xorReg x y
  | addReg x y => exact decodeWord_addReg x y
  | subReg x y => exact decodeWord_subReg x y
  | shr x y => exact decodeWord_shr x y
  | subn x y => exact decodeWord_subn x y
  | shl x y => exact decodeWord_shl x y
  | sneReg x y n => exact decodeWord_sneReg x y n
  | ldI nnn => exact decodeWord_ldI nnn
  | jpV0 nnn => exact decodeWord_jpV0 nnn
  | rnd x kk => exact decodeWord_rnd x kk
  | drw x y n => exact decodeWord_drw x y n
  | skp x => exact decodeWord_skp x
  | sknp x => exact decodeWord_sknp x
  | ldVxDt x => exact decodeWord_ldVxDt x
  | ldVxK x => exact decodeWord_ldVxK x
  | ldDtVx x => exact decodeWord_ldDtVx x
  | ldStVx x => exact decodeWord_ldStVx x
  | addI x => exact decodeWord_addI x
  | ldF x => exact decodeWord_ldF x
  | ldB x => exact decodeWord_ldB x
  | storeRegs x => exact decodeWord_storeRegs x
  | loadRegs x => exact decodeWord_loadRegs x
  | fallback w => exact decodeWord_of_unrecognized h

/-! ### Encoding after decoding -/

/-- `i` stands for the word `w`: well-formed, and `w` is its encoding. -/
def StandsFor (i : Instr) (w : Word) : Prop := i.wellFormed = true ∧ encode i = w

section
variable {w : Word} {a : Nibble}

/-! A word put together again from its opcode and its fields (R71). -/

theorem addr_word_eq (h : w.toNat / 4096 = a.toNat) : a ++ fieldNNN w = w := by
  apply BitVec.eq_of_toNat_eq
  rw [toNat_append_eq, fieldNNN_toNat]
  omega

theorem byte_word_eq {kk : Byte} (h : w.toNat / 4096 = a.toNat) (hkk : w.toNat % 256 = kk.toNat) :
    a ++ fieldX w ++ kk = w := by
  apply BitVec.eq_of_toNat_eq
  rw [byte_word_toNat, fieldX_toNat]
  omega

theorem nibble_word_eq {n : Nibble} (h : w.toNat / 4096 = a.toNat) (hn : w.toNat % 16 = n.toNat) :
    a ++ fieldX w ++ fieldY w ++ n = w := by
  apply BitVec.eq_of_toNat_eq
  rw [nibble_word_toNat, fieldX_toNat, fieldY_toNat]
  omega

/-- First nibble 0: one of the two whole-word rows, or the fallback. -/
theorem decodeWord_standsFor_of_opcode_zero (h : w.toNat / 4096 = 0x0) : StandsFor (decodeWord w) w := by
  rw [decodeWord_of_opcode_zero h]
  split
  case isTrue hcls => exact ⟨rfl, BitVec.eq_of_toNat_eq hcls.symm⟩
  split
  case isTrue hret => exact ⟨rfl, BitVec.eq_of_toNat_eq hret.symm⟩
  case isFalse hcls hret => exact ⟨unrecognized_iff.mpr (.inl ⟨h, hcls, hret⟩), rfl⟩

/-- First nibble 8: the row of the last nibble, or the fallback where there is none. -/
theorem decodeWord_standsFor_of_opcode_eight (h : w.toNat / 4096 = 0x8) : StandsFor (decodeWord w) w := by
  rw [decodeWord_of_opcode_eight h]
  repeat' split
  case isFalse =>
    refine ⟨unrecognized_iff.mpr (.inr (.inl ⟨h, ?_⟩)), rfl⟩
    simp only [List.mem_cons, List.not_mem_nil, or_false]
    omega
  all_goals exact ⟨rfl, nibble_word_eq h ‹_›⟩

/-- First nibble E: the row of the last byte, or the fallback where there is none. -/
theorem decodeWord_standsFor_of_opcode_fourteen (h : w.toNat / 4096 = 0xE) : StandsFor (decodeWord w) w := by
  rw [decodeWord_of_opcode_fourteen h]
  split
  case isTrue hskp => exact ⟨rfl, byte_word_eq h hskp⟩
  split
  case isTrue hsknp => exact ⟨rfl, byte_word_eq h hsknp⟩
  case isFalse hskp hsknp => exact ⟨unrecognized_iff.mpr (.inr (.inr (.inl ⟨h, hskp, hsknp⟩))), rfl⟩

/-- First nibble F: the row of the last byte, or the fallback where there is none. -/
theorem decodeWord_standsFor_of_opcode_fifteen (h : w.toNat / 4096 = 0xF) : StandsFor (decodeWord w) w := by
  rw [decodeWord_of_opcode_fifteen h]
  repeat' split
  case isFalse =>
    refine ⟨unrecognized_iff.mpr (.inr (.inr (.inr ⟨h, ?_⟩))), rfl⟩
    simp only [List.mem_cons, List.not_mem_nil, or_false]
    omega
  all_goals exact ⟨rfl, byte_word_eq h ‹_›⟩

end

/-- The first nibble selects one row, or one of the four families above. -/
theorem decodeWord_standsFor (w : Word) : StandsFor (decodeWord w) w := by
  have hop : w.toNat / 4096 < 16 := by omega
  have hkk : w.toNat % 256 = (fieldKK w).toNat := (fieldKK_toNat w).symm
  have hn : w.toNat % 16 = (fieldN w).toNat := (fieldN_toNat w).symm
  generalize ho : w.toNat / 4096 = o at hop
  interval_cases o
  · exact decodeWord_standsFor_of_opcode_zero ho
  · exact decodeWord_of_opcode_one ho ▸ ⟨rfl, addr_word_eq ho⟩
  · exact decodeWord_of_opcode_two ho ▸ ⟨rfl, addr_word_eq ho⟩
  · exact decodeWord_of_opcode_three ho ▸ ⟨rfl, byte_word_eq ho hkk⟩
  · exact decodeWord_of_opcode_four ho ▸ ⟨rfl, byte_word_eq ho hkk⟩
  · exact decodeWord_of_opcode_five ho ▸ ⟨rfl, nibble_word_eq ho hn⟩
  · exact decodeWord_of_opcode_six ho ▸ ⟨rfl, byte_word_eq ho hkk⟩
  · exact decodeWord_of_opcode_seven ho ▸ ⟨rfl, byte_word_eq ho hkk⟩
  · exact decodeWord_standsFor_of_opcode_eight ho
  · exact decodeWord_of_opcode_nine ho ▸ ⟨rfl, nibble_word_eq ho hn⟩
  · exact decodeWord_of_opcode_ten ho ▸ ⟨rfl, addr_word_eq ho⟩
  · exact decodeWord_of_opcode_eleven ho ▸ ⟨rfl, addr_word_eq ho⟩
  · exact decodeWord_of_opcode_twelve ho ▸ ⟨rfl, byte_word_eq ho hkk⟩
  · exact decodeWord_of_opcode_thirteen ho ▸ ⟨rfl, nibble_word_eq ho hn⟩
  · exact decodeWord_standsFor_of_opcode_fourteen ho
  · exact decodeWord_standsFor_of_opcode_fifteen ho

/-- A fallback that the decoder answers carries the word it was given, an unrecognized one. -/
theorem eq_and_unrecognized_of_decodeWord_fallback {w w' : Word} (h : decodeWord w = .fallback w') :
    w' = w ∧ unrecognized w = true := by
  obtain ⟨hwf, henc⟩ := decodeWord_standsFor w
  rw [h] at hwf henc
  obtain rfl : w' = w := henc
  exact ⟨rfl, hwf⟩

theorem decodeWord_eq_fallback_iff (w : Word) : decodeWord w = .fallback w ↔ unrecognized w = true :=
  ⟨fun h => (eq_and_unrecognized_of_decodeWord_fallback h).2, decodeWord_of_unrecognized⟩

/-- The last nibbles of the unrecognized words `8xyN`, as the range 30_encoding.md R77 gives. -/
theorem mem_unrecognized_alu_nibbles {n : Nat} (h : n < 16) :
    n ∈ [0x8, 0x9, 0xA, 0xB, 0xC, 0xD, 0xF] ↔ 0x8 ≤ n ∧ n ≠ 0xE := by
  simp only [List.mem_cons, List.not_mem_nil, or_false]
  omega

/-! ### Disjoint rows -/

/-- The fixed bits of two rows differ under the mask that both have. -/
def Row.Apart (r r' : Row) : Prop := r.fixed &&& r'.mask ≠ r'.fixed &&& r.mask

/-- A word that hits both rows agrees with both fixed parts under the common mask. -/
theorem Row.Apart.not_both_hit {r r' : Row} (h : r.Apart r') (w : Word) : ¬(r.hits w = true ∧ r'.hits w = true) := by
  rintro ⟨hr, hr'⟩
  have hr : w &&& r.mask = r.fixed := beq_iff_eq.mp hr
  have hr' : w &&& r'.mask = r'.fixed := beq_iff_eq.mp hr'
  refine h ?_
  calc r.fixed &&& r'.mask = w &&& r.mask &&& r'.mask := by rw [hr]
    _ = w &&& r'.mask &&& r.mask := by rw [BitVec.and_assoc, BitVec.and_comm r.mask, BitVec.and_assoc]
    _ = r'.fixed &&& r.mask := by rw [hr']

theorem opcodeRows_apart : opcodeRows.Pairwise Row.Apart := by
  unfold Row.Apart
  decide

/-! ### The obligations of the decoder -/

/-- Settles O2: one row of the table for each constructor. -/
theorem decodeOfEncodeIsIdentity : Obligations.DecodeOfEncodeIsIdentity := by
  unfold Obligations.DecodeOfEncodeIsIdentity
  exact decodeWord_encode

/-- Settles O3: by the first nibble, then the last nibble or byte, the word is put together again from its fields. -/
theorem everyWordDecodesAndEncodesBack : Obligations.EveryWordDecodesAndEncodesBack := by
  unfold Obligations.EveryWordDecodesAndEncodesBack
  exact decodeWord_standsFor

/-- Settles O4: every two rows differ in a fixed bit that both masks look at. -/
theorem opcodeRowsAreDisjoint : Obligations.OpcodeRowsAreDisjoint := by
  unfold Obligations.OpcodeRowsAreDisjoint
  exact ⟨rfl, opcodeRows_apart.imp Row.Apart.not_both_hit⟩

/-- Settles O5: the fallback is well-formed on the unrecognized words only, and encodes back to the word. -/
theorem fallbackTakesExactlyTheUnrecognizedWords : Obligations.FallbackTakesExactlyTheUnrecognizedWords := by
  unfold Obligations.FallbackTakesExactlyTheUnrecognizedWords
  intro w
  refine ⟨?_, fun w' h => (eq_and_unrecognized_of_decodeWord_fallback h).1⟩
  rw [decodeWord_eq_fallback_iff, unrecognized_iff, mem_unrecognized_alu_nibbles (Nat.mod_lt _ (by decide))]

/-- Settles O1: each word is the encoding of its instruction. -/
theorem decodeSampleWords : Obligations.DecodeSampleWords := by
  unfold Obligations.DecodeSampleWords
  exact ⟨rfl, rfl, decodeWord_jp 0xABC, decodeWord_seReg 0x1 0x2 0xF, decodeWord_ldReg 0xA 0xB, decodeWord_shl 0xA 0xB,
    decodeWord_ldI 0x300, decodeWord_drw 0x1 0x2 0xF, decodeWord_sknp 0x1, decodeWord_ldVxK 0x1,
    decodeWord_loadRegs 0x1, rfl⟩

end Sys2Proof

/-! SUPPORT. What every instruction does: the meanings that no section above names, the outcomes of Fx0A, the frame of each
instruction, and from it that no event stops the machine and which parts of the state move at all. -/

namespace Sys2Proof.Machine

/-! ### The frames of the remaining updates -/

theorem Part.same_refl (p : Part) (s : State) : p.same s s := by
  cases p
  case v | stack | mem => exact fun _ => rfl
  case fb => exact fun _ _ => rfl
  all_goals rfl

/-- The wait latch at given values (10_state.md R32). -/
def State.latched (s : State) (active : Bool) (snap : Word) : State := { s with kwActive := active, kwSnap := snap }

section
variable (s : State)

theorem withV_unchangedExcept (v : Vector Byte 16) : UnchangedExcept [.v] s { s with v := v } := by
  intro p hp
  have hkept := Part.same_refl p s
  cases p
  case v => exact absurd (List.mem_singleton_self _) hp
  all_goals exact hkept

theorem withSt_unchangedExcept (b : Byte) : UnchangedExcept [.st] s { s with st := b } := by
  intro p hp
  have hkept := Part.same_refl p s
  cases p
  case st => exact absurd (List.mem_singleton_self _) hp
  all_goals exact hkept

theorem withFb_unchangedExcept (fb : Pixels) : UnchangedExcept [.fb] s { s with fb := fb } := by
  intro p hp
  have hkept := Part.same_refl p s
  cases p
  case fb => exact absurd (List.mem_singleton_self _) hp
  all_goals exact hkept

theorem withMem_unchangedExcept (m : Memory) : UnchangedExcept [.mem] s { s with mem := m } := by
  intro p hp
  have hkept := Part.same_refl p s
  cases p
  case mem => exact absurd (List.mem_singleton_self _) hp
  all_goals exact hkept

theorem latched_active_unchangedExcept (active : Bool) :
    UnchangedExcept [.kwActive] s (s.latched active s.kwSnap) := by
  intro p hp
  have hkept := Part.same_refl p s
  cases p
  case kwActive => exact absurd (List.mem_singleton_self _) hp
  all_goals exact hkept

theorem latched_snap_unchangedExcept (snap : Word) : UnchangedExcept [.kwSnap] s (s.latched s.kwActive snap) := by
  intro p hp
  have hkept := Part.same_refl p s
  cases p
  case kwSnap => exact absurd (List.mem_singleton_self _) hp
  all_goals exact hkept

theorem latched_unchangedExcept (active : Bool) (snap : Word) :
    UnchangedExcept [.kwActive, .kwSnap] s (s.latched active snap) :=
  (latched_active_unchangedExcept s active).trans (latched_snap_unchangedExcept (s.latched active s.kwSnap) snap)

theorem keysIn_unchangedExcept (k : Word) : UnchangedExcept [.keys] s (s.keysIn k) := by
  intro p hp
  have hkept := Part.same_refl p s
  cases p
  case keys => exact absurd (List.mem_singleton_self _) hp
  all_goals exact hkept

theorem drawn_unchangedExcept : UnchangedExcept [.draws] s s.drawn := by
  intro p hp
  have hkept := Part.same_refl p s
  cases p
  case draws => exact absurd (List.mem_singleton_self _) hp
  all_goals exact hkept

theorem eventTaken_unchangedExcept : UnchangedExcept [.events] s s.eventTaken := by
  intro p hp
  have hkept := Part.same_refl p s
  cases p
  case events => exact absurd (List.mem_singleton_self _) hp
  all_goals exact hkept

theorem tick_unchangedExcept : UnchangedExcept [.dt, .st] s s.tick :=
  (withDt_unchangedExcept s (countDown s.dt)).trans (withSt_unchangedExcept _ (countDown s.st))

theorem setFlag_unchangedExcept (f : Bool) : UnchangedExcept [.v] s (s.setFlag f) := setV_unchangedExcept s _ _

theorem setResultFlag_unchangedExcept (x : Nibble) (b : Byte) (f : Bool) :
    UnchangedExcept [.v] s (s.setResultFlag x b f) :=
  ((setV_unchangedExcept s x b).trans (setFlag_unchangedExcept _ f)).mono (by decide)

theorem storeBytes_unchangedExcept (a : Nat) (bs : List Byte) : UnchangedExcept [.mem] s (s.storeBytes a bs) := by
  rw [storeBytes_eq]
  exact withMem_unchangedExcept s _

theorem loadBytes_unchangedExcept (a n : Nat) : UnchangedExcept [.v] s (s.loadBytes a n) := by
  rw [loadBytes_eq]
  exact withV_unchangedExcept s _

theorem indexUpdate_unchangedExcept (x : Nibble) : UnchangedExcept [.i] s (s.indexUpdate x) := by
  rw [indexUpdate_eq]
  exact setI_unchangedExcept s _

theorem storeKey_unchangedExcept (x k : Nibble) : UnchangedExcept [.v, .draws] s (storeKey x k s) :=
  (setV_unchangedExcept s x _).trans (drawn_unchangedExcept _)

end

/-! ### The meanings of the remaining instructions -/

section
variable (s : State)

theorem exec_addReg (x y : Nibble) :
    exec (.addReg x y) s =
      running (s.setResultFlag x (s.getV x + s.getV y) (carryOf (s.getV x) (s.getV y))) := rfl

theorem exec_subReg (x y : Nibble) :
    exec (.subReg x y) s =
      running (s.setResultFlag x (s.getV x - s.getV y) (notBorrowOf (s.getV x) (s.getV y))) := rfl

theorem exec_shr (x y : Nibble) :
    exec (.shr x y) s = running (s.setResultFlag x (s.shiftOperand x y >>> 1) (lsbOf (s.shiftOperand x y))) := rfl

theorem exec_subn (x y : Nibble) :
    exec (.subn x y) s =
      running (s.setResultFlag x (s.getV y - s.getV x) (notBorrowOf (s.getV y) (s.getV x))) := rfl

theorem exec_shl (x y : Nibble) :
    exec (.shl x y) s = running (s.setResultFlag x (s.shiftOperand x y <<< 1) (msbOf (s.shiftOperand x y))) := rfl

theorem exec_jpV0 (nnn : Addr) : exec (.jpV0 nnn) s = running (s.setPc (addrWord nnn + s.getVWord 0)) := rfl

theorem exec_rnd (x : Nibble) (kk : Byte) : exec (.rnd x kk) s = running (s.setV x (s.rndByte &&& kk)).drawn := rfl

/-- The blit of Dxyn (44_display.md R162). -/
def State.drawBlit (s : State) (x y n : Nibble) : Blit := s.blitRows (s.getV x).toNat (s.getV y).toNat n.toNat

theorem exec_drw (x y n : Nibble) :
    exec (.drw x y n) s =
      runningDrawn ({ s with fb := (s.drawBlit x y n).fb }.setFlag (s.drawBlit x y n).collision) := rfl

theorem exec_skp (x : Nibble) : exec (.skp x) s = running (s.skipIf (s.key (s.getV x))) := rfl

theorem exec_sknp (x : Nibble) : exec (.sknp x) s = running (s.skipIf (!s.key (s.getV x))) := rfl

theorem exec_ldStVx (x : Nibble) : exec (.ldStVx x) s = running { s with st := s.getV x } := rfl

theorem exec_addI (x : Nibble) : exec (.addI x) s = running (s.setI (s.i + s.getVWord x)) := rfl

theorem exec_ldF (x : Nibble) : exec (.ldF x) s = running (s.setI (s.glyphAddr x)) := rfl

theorem exec_ldB (x : Nibble) : exec (.ldB x) s = running (s.storeBytes s.indexBase (bcdDigits (s.getV x))) := rfl

theorem exec_storeRegs (x : Nibble) :
    exec (.storeRegs x) s = running ((s.storeBytes s.indexBase (s.regList x)).indexUpdate x) := rfl

theorem exec_loadRegs (x : Nibble) :
    exec (.loadRegs x) s = running ((s.loadBytes s.indexBase (x.toNat + 1)).indexUpdate x) := rfl

end

/-! ### The outcomes of Fx0A (45_timers_keypad.md R175, R177) -/

/-- A key state with a key in it lists one first, and whichever of the list is chosen is one of its keys. -/
theorem keyList_eq_cons {ks : Word} (h : ks ≠ 0) :
    ∃ k rest, keyList ks = k :: rest ∧ ∀ draw, ks.getLsbD (chooseKey draw k rest).toNat = true := by
  obtain ⟨k, rest, hlist⟩ := List.exists_cons_of_ne_nil (mt (keyList_eq_nil ks).mp h)
  exact ⟨k, rest, hlist, fun draw => (mem_keyList ks _).mp (hlist ▸ chooseKey_mem draw k rest)⟩

section
variable {s : State} (x : Nibble)

theorem exec_ldVxK_of_level (hmode : s.cfg.keyWaitMode = .level) : exec (.ldVxK x) s = keyWaitLevel x s := by
  simp only [exec, execLdVxK, hmode]

theorem exec_ldVxK_of_edge (hmode : s.cfg.keyWaitMode = .edge) : exec (.ldVxK x) s = keyWaitEdge x s := by
  simp only [exec, execLdVxK, hmode]

section
variable {k : Nibble} {rest : List Nibble}

theorem keyWaitLevel_of_nil (hlist : keyList s.keys = []) : keyWaitLevel x s = awaitingKey s := by
  simp only [keyWaitLevel, hlist]

theorem keyWaitLevel_of_cons (hlist : keyList s.keys = k :: rest) :
    keyWaitLevel x s = running (storeKey x (chooseKey s.draws k rest) s) := by
  simp only [keyWaitLevel, hlist]

theorem keyWaitEdge_of_inactive (hactive : s.kwActive = false) :
    keyWaitEdge x s = awaitingKey (s.latched true s.keys) := by
  simp only [keyWaitEdge, hactive, Bool.false_eq_true, if_false, State.latched]

theorem keyWaitEdge_of_nil (hactive : s.kwActive = true) (hlist : keyList (s.keys &&& ~~~s.kwSnap) = []) :
    keyWaitEdge x s = awaitingKey (s.latched true s.keys) := by
  simp only [keyWaitEdge, hlist, hactive, if_true, State.latched]

theorem keyWaitEdge_of_cons (hactive : s.kwActive = true) (hlist : keyList (s.keys &&& ~~~s.kwSnap) = k :: rest) :
    keyWaitEdge x s = running ((storeKey x (chooseKey s.draws k rest) s).latched false s.kwSnap) := by
  simp only [keyWaitEdge, hlist, hactive, if_true]
  rfl

end

theorem keyWaitLevel_of_no_key (hkeys : s.keys = 0) : keyWaitLevel x s = awaitingKey s :=
  keyWaitLevel_of_nil x ((keyList_eq_nil s.keys).mpr hkeys)

theorem keyWaitLevel_of_key (hkeys : s.keys ≠ 0) :
    ∃ k : Nibble, s.keys.getLsbD k.toNat = true ∧ keyWaitLevel x s = running (storeKey x k s) := by
  obtain ⟨k, rest, hlist, hchoice⟩ := keyList_eq_cons hkeys
  exact ⟨_, hchoice s.draws, keyWaitLevel_of_cons x hlist⟩

theorem keyWaitEdge_of_no_new_key (hactive : s.kwActive = true) (hnew : s.keys &&& ~~~s.kwSnap = 0) :
    keyWaitEdge x s = awaitingKey (s.latched true s.keys) :=
  keyWaitEdge_of_nil x hactive ((keyList_eq_nil _).mpr hnew)

theorem keyWaitEdge_of_new_key (hactive : s.kwActive = true) (hnew : s.keys &&& ~~~s.kwSnap ≠ 0) :
    ∃ k : Nibble, (s.keys &&& ~~~s.kwSnap).getLsbD k.toNat = true ∧
      keyWaitEdge x s = running ((storeKey x k s).latched false s.kwSnap) := by
  obtain ⟨k, rest, hlist, hchoice⟩ := keyList_eq_cons hnew
  exact ⟨_, hchoice s.draws, keyWaitEdge_of_cons x hactive hlist⟩

/-- Fx0A waits, with the wait latch untouched under LEVEL and KEYS latched under EDGE, or it stores a key and ends the
wait. -/
theorem exec_ldVxK_cases (s : State) (x : Nibble) :
    (∃ active snap, exec (.ldVxK x) s = awaitingKey (s.latched active snap) ∧
      (s.cfg.keyWaitMode = .level → s.keys = 0 ∧ active = s.kwActive ∧ snap = s.kwSnap) ∧
      (s.cfg.keyWaitMode = .edge → s.kwActive = false ∨ s.keys &&& ~~~s.kwSnap = 0)) ∨
    (∃ k active, exec (.ldVxK x) s = running ((storeKey x k s).latched active s.kwSnap) ∧
      (s.cfg.keyWaitMode = .level → active = s.kwActive)) := by
  cases hmode : s.cfg.keyWaitMode with
  | level =>
    rw [exec_ldVxK_of_level x hmode]
    by_cases hkeys : s.keys = 0
    · exact .inl ⟨_, _, keyWaitLevel_of_no_key x hkeys, fun _ => ⟨hkeys, rfl, rfl⟩, nofun⟩
    · obtain ⟨k, -, hk⟩ := keyWaitLevel_of_key x hkeys
      exact .inr ⟨k, _, hk, fun _ => rfl⟩
  | edge =>
    rw [exec_ldVxK_of_edge x hmode]
    cases hactive : s.kwActive with
    | false => exact .inl ⟨_, _, keyWaitEdge_of_inactive x hactive, nofun, fun _ => .inl rfl⟩
    | true =>
      by_cases hnew : s.keys &&& ~~~s.kwSnap = 0
      · exact .inl ⟨_, _, keyWaitEdge_of_no_new_key x hactive hnew, nofun, fun _ => .inr hnew⟩
      · obtain ⟨k, -, hk⟩ := keyWaitEdge_of_new_key x hactive hnew
        exact .inr ⟨k, _, hk, nofun⟩

end

theorem awaitingKey_eq (s : State) :
    awaitingKey s = .next { s.setPc (s.pc - 2) with out := ⟨.awaitingKey, false, none⟩ } := rfl

theorem running_eq (s : State) : running s = .next { s with out := Outputs.quiet } := rfl

section
variable {i : Instr} {s t u : State}

theorem next_eq_of_exec (h : exec i s = .next t) (hexec : exec i s = .next u) : t = u := by
  rw [h] at hexec
  injection hexec

theorem eq_of_running (h : exec i s = .next t) (hexec : exec i s = running u) :
    t = { u with out := Outputs.quiet } := next_eq_of_exec h hexec

theorem eq_of_awaitingKey (h : exec i s = .next t) (hexec : exec i s = awaitingKey u) :
    t = { u.setPc (u.pc - 2) with out := ⟨.awaitingKey, false, none⟩ } := next_eq_of_exec h hexec

end

/-! ### The frame of every instruction -/

/-- An instruction that ends with the outputs `o` on top of the changes of `u` stays within what `u` changes. -/
theorem exec_frame_of_update {i : Instr} {s u : State} {o : Outputs} {ps : List Part} (hframe : UnchangedExcept ps s u)
    (hexec : exec i s = .next { u with out := o }) :
    ∃ t, exec i s = .next t ∧ UnchangedExcept (ps ++ [.out]) s t :=
  ⟨_, hexec, hframe.trans (withOut_unchangedExcept u o)⟩

theorem exec_ldVxK_frame (x : Nibble) (s : State) :
    ∃ t, exec (.ldVxK x) s = .next t ∧ UnchangedExcept (mayWrite (.ldVxK x)) s t := by
  obtain ⟨active, snap, hexec, -⟩ | ⟨k, active, hexec, -⟩ := exec_ldVxK_cases s x
  · obtain ⟨t, ht, hframe⟩ := exec_frame_of_update
      ((latched_unchangedExcept s active snap).trans (setPc_unchangedExcept _ _)) (hexec.trans (awaitingKey_eq _))
    exact ⟨t, ht, hframe.mono (by simp [mayWrite])⟩
  · obtain ⟨t, ht, hframe⟩ := exec_frame_of_update
      ((storeKey_unchangedExcept s x k).trans (latched_unchangedExcept _ active s.kwSnap)) (hexec.trans (running_eq _))
    exact ⟨t, ht, hframe.mono (by simp [mayWrite])⟩

theorem exec_rnd_frame (x : Nibble) (kk : Byte) (s : State) :
    ∃ t, exec (.rnd x kk) s = .next t ∧ UnchangedExcept (mayWrite (.rnd x kk)) s t := by
  obtain ⟨t, ht, hframe⟩ := exec_frame_of_update (i := .rnd x kk)
    ((setV_unchangedExcept s x (s.rndByte &&& kk)).trans (drawn_unchangedExcept _)) rfl
  exact ⟨t, ht, hframe.mono (by simp [mayWrite])⟩

theorem exec_drw_frame (x y n : Nibble) (s : State) :
    ∃ t, exec (.drw x y n) s = .next t ∧ UnchangedExcept (mayWrite (.drw x y n)) s t := by
  obtain ⟨t, ht, hframe⟩ := exec_frame_of_update (i := .drw x y n)
    ((withFb_unchangedExcept s (s.drawBlit x y n).fb).trans (setFlag_unchangedExcept _ (s.drawBlit x y n).collision)) rfl
  exact ⟨t, ht, hframe.mono (by simp [mayWrite])⟩

theorem exec_call_frame (nnn : Addr) (s : State) :
    ∃ t, exec (.call nnn) s = .next t ∧ UnchangedExcept (mayWrite (.call nnn)) s t := by
  obtain ⟨t, ht, hframe⟩ := exec_frame_of_update (i := .call nnn)
    ((push_unchangedExcept s s.pc).trans (setPc_unchangedExcept _ (addrWord nnn))) rfl
  exact ⟨t, ht, hframe.mono (by simp [mayWrite])⟩

/-- Every instruction answers a next state, which differs in the parts named for it alone. -/
theorem exec_frame (i : Instr) (s : State) : ∃ t, exec i s = .next t ∧ UnchangedExcept (mayWrite i) s t := by
  cases i with
  | cls => exact exec_frame_of_update (clearScreen_unchangedExcept s) rfl
  | ret => exact exec_frame_of_update ((setPc_unchangedExcept s (s.slot s.sp)).trans (pop_unchangedExcept _)) rfl
  | jp nnn => exact exec_frame_of_update (setPc_unchangedExcept s (addrWord nnn)) rfl
  | call nnn => exact exec_call_frame nnn s
  | seImm x kk => exact exec_frame_of_update (skipIf_unchangedExcept s (s.getV x == kk)) rfl
  | sneImm x kk => exact exec_frame_of_update (skipIf_unchangedExcept s (s.getV x != kk)) rfl
  | seReg x y n => exact exec_frame_of_update (skipIf_unchangedExcept s (s.getV x == s.getV y)) rfl
  | ldImm x kk => exact exec_frame_of_update (setV_unchangedExcept s x kk) rfl
  | addImm x kk => exact exec_frame_of_update (setV_unchangedExcept s x (s.getV x + kk)) rfl
  | ldReg x y => exact exec_frame_of_update (setV_unchangedExcept s x (s.getV y)) rfl
  | orReg x y => exact exec_frame_of_update (setV_unchangedExcept s x (s.getV x ||| s.getV y)) rfl
  | andReg x y => exact exec_frame_of_update (setV_unchangedExcept s x (s.getV x &&& s.getV y)) rfl
  | xorReg x y => exact exec_frame_of_update (setV_unchangedExcept s x (s.getV x ^^^ s.getV y)) rfl
  | addReg x y => exact exec_frame_of_update (setResultFlag_unchangedExcept s x _ _) (exec_addReg s x y)
  | subReg x y => exact exec_frame_of_update (setResultFlag_unchangedExcept s x _ _) (exec_subReg s x y)
  | shr x y => exact exec_frame_of_update (setResultFlag_unchangedExcept s x _ _) (exec_shr s x y)
  | subn x y => exact exec_frame_of_update (setResultFlag_unchangedExcept s x _ _) (exec_subn s x y)
  | shl x y => exact exec_frame_of_update (setResultFlag_unchangedExcept s x _ _) (exec_shl s x y)
  | sneReg x y n => exact exec_frame_of_update (skipIf_unchangedExcept s (s.getV x != s.getV y)) rfl
  | ldI nnn => exact exec_frame_of_update (setI_unchangedExcept s (addrWord nnn)) rfl
  | jpV0 nnn => exact exec_frame_of_update (setPc_unchangedExcept s (addrWord nnn + s.getVWord 0)) rfl
  | rnd x kk => exact exec_rnd_frame x kk s
  | drw x y n => exact exec_drw_frame x y n s
  | skp x => exact exec_frame_of_update (skipIf_unchangedExcept s (s.key (s.getV x))) rfl
  | sknp x => exact exec_frame_of_update (skipIf_unchangedExcept s (!s.key (s.getV x))) rfl
  | ldVxDt x => exact exec_frame_of_update (setV_unchangedExcept s x s.dt) rfl
  | ldVxK x => exact exec_ldVxK_frame x s
  | ldDtVx x => exact exec_frame_of_update (withDt_unchangedExcept s (s.getV x)) rfl
  | ldStVx x => exact exec_frame_of_update (withSt_unchangedExcept s (s.getV x)) rfl
  | addI x => exact exec_frame_of_update (setI_unchangedExcept s (s.i + s.getVWord x)) rfl
  | ldF x => exact exec_frame_of_update (setI_unchangedExcept s (s.glyphAddr x)) rfl
  | ldB x => exact exec_frame_of_update (storeBytes_unchangedExcept s s.indexBase (bcdDigits (s.getV x))) rfl
  | storeRegs x =>
    exact exec_frame_of_update
      ((storeBytes_unchangedExcept s s.indexBase (s.regList x)).trans (indexUpdate_unchangedExcept _ x)) rfl
  | loadRegs x =>
    exact exec_frame_of_update
      ((loadBytes_unchangedExcept s s.indexBase (x.toNat + 1)).trans (indexUpdate_unchangedExcept _ x)) rfl
  | fallback w => exact ⟨_, exec_fallback s w, withOut_unchangedExcept s _⟩

theorem exec_unchangedExcept {i : Instr} {s t : State} (h : exec i s = .next t) : UnchangedExcept (mayWrite i) s t := by
  obtain ⟨t', ht', hframe⟩ := exec_frame i s
  exact next_eq_of_exec h ht' ▸ hframe

theorem cfg_not_mem_mayWrite (i : Instr) : Part.cfg ∉ mayWrite i := by
  cases i <;> simp [mayWrite]

theorem exec_cfg {i : Instr} {s t : State} (h : exec i s = .next t) : t.cfg = s.cfg :=
  exec_unchangedExcept h .cfg (cfg_not_mem_mayWrite i)

/-! ### The three kinds of event -/

section
variable {s : State}

theorem step_of_step (h : s.events.next.1 = .step) :
    step s = exec (decodeWord s.fetchWord) s.eventTaken.advance := by
  rw [step_eq_performed, h]
  rfl

theorem step_of_tick (h : s.events.next.1 = .tick) : step s = .next s.eventTaken.tick := by
  rw [step_eq_performed, h]
  rfl

theorem step_of_keysIn {k : Word} (h : s.events.next.1 = .keysIn k) : step s = .next (s.eventTaken.keysIn k) := by
  rw [step_eq_performed, h]
  rfl

/-- An event is a step that runs the fetched instruction after the advance of PC, a tick, or a key write. -/
theorem step_cases {t : State} (h : step s = .next t) :
    (s.events.next.1 = .step ∧ exec (decodeWord s.fetchWord) s.eventTaken.advance = .next t) ∨
    (s.events.next.1 = .tick ∧ t = s.eventTaken.tick) ∨
    (∃ k, s.events.next.1 = .keysIn k ∧ t = s.eventTaken.keysIn k) := by
  cases he : s.events.next.1 with
  | step => exact .inl ⟨rfl, step_of_step he ▸ h⟩
  | tick =>
    rw [step_of_tick he] at h
    injection h with h
    exact .inr (.inl ⟨rfl, h.symm⟩)
  | keysIn k =>
    rw [step_of_keysIn he] at h
    injection h with h
    exact .inr (.inr ⟨k, rfl, h.symm⟩)

end

theorem step_total (s : State) : ∃ t, step s = .next t := by
  cases he : s.events.next.1 with
  | step =>
    obtain ⟨t, ht, -⟩ := exec_frame (decodeWord s.fetchWord) s.eventTaken.advance
    exact ⟨t, (step_of_step he).trans ht⟩
  | tick => exact ⟨_, step_of_tick he⟩
  | keysIn k => exact ⟨_, step_of_keysIn he⟩

theorem safe (s : State) : Safe s := by
  intro n
  induction n generalizing s with
  | zero => exact ⟨s, (reaches_zero s s).mpr rfl⟩
  | succ n ih =>
    obtain ⟨u, hu⟩ := step_total s
    obtain ⟨t, ht⟩ := ih u
    exact ⟨t, (reaches_succ s t n).mpr ⟨u, hu, ht⟩⟩

theorem step_cfg {s t : State} (h : step s = .next t) : t.cfg = s.cfg := by
  obtain ⟨-, h⟩ | ⟨-, rfl⟩ | ⟨k, -, rfl⟩ := step_cases h
  · simpa using exec_cfg h
  · rfl
  · rfl

/-! ### SP and VF -/

theorem sp_not_mem_mayWrite {i : Instr} (hret : i ≠ .ret) (hcall : ∀ nnn, i ≠ .call nnn) : Part.sp ∉ mayWrite i := by
  cases i
  case ret => exact absurd rfl hret
  case call nnn => exact absurd rfl (hcall nnn)
  all_goals simp [mayWrite]

theorem st_not_mem_mayWrite {i : Instr} (h : ∀ x, i ≠ .ldStVx x) : Part.st ∉ mayWrite i := by
  cases i
  case ldStVx x => exact absurd rfl (h x)
  all_goals simp [mayWrite]

theorem flagByte_eq_zero_or_one (f : Bool) : flagByte f = 0 ∨ flagByte f = 1 := by
  cases f
  · exact .inl rfl
  · exact .inr rfl

section
variable {i : Instr} {s t : State} {x : Nibble}

theorem getV_VF_of_setV {b : Byte} (hexec : exec i s = running (s.setV x b)) (hx : (x == 0xF) = false)
    (h : exec i s = .next t) : t.getV 0xF = s.getV 0xF := by
  obtain ⟨t', ht', -, -, hv⟩ := completes_of_setV hexec
  rw [next_eq_of_exec h ht', hv, if_neg (beq_eq_false_iff_ne.mp hx).symm]

theorem getV_VF_of_setResultFlag {b : Byte} {f : Bool} (hexec : exec i s = running (s.setResultFlag x b f))
    (h : exec i s = .next t) : t.getV 0xF = flagByte f := by
  rw [eq_of_running h hexec]
  exact (getV_setResultFlag s x 0xF b f).trans (if_pos rfl)

theorem storeKey_getV_of_ne (s : State) (x k : Nibble) {r : Nibble} (hr : r ≠ x) :
    (storeKey x k s).getV r = s.getV r := (getV_setV s x r _).trans (if_neg hr)

theorem getV_VF_of_ldVxK (hx : (x == 0xF) = false) (h : exec (.ldVxK x) s = .next t) :
    t.getV 0xF = s.getV 0xF := by
  obtain ⟨active, snap, hexec, -⟩ | ⟨k, active, hexec, -⟩ := exec_ldVxK_cases s x
  · obtain rfl := eq_of_awaitingKey h hexec
    rfl
  · obtain rfl := eq_of_running h hexec
    exact storeKey_getV_of_ne s x k (beq_eq_false_iff_ne.mp hx).symm

theorem getV_VF_of_loadRegs (hx : (x == 0xF) = false) (h : exec (.loadRegs x) s = .next t) :
    t.getV 0xF = s.getV 0xF := by
  have hlt : ¬(0xF : Nibble).toNat < x.toNat + 1 := by
    have hne : x.toNat ≠ 15 := fun e => beq_eq_false_iff_ne.mp hx (BitVec.eq_of_toNat_eq e)
    have := x.isLt
    exact fun hlt => by simp at hlt; omega
  rw [exec_loadRegs, indexUpdate_eq] at h
  injection h with h
  rw [← h]
  exact (getV_loadBytes s s.indexBase _ (by omega) 0xF).trans (if_neg hlt)

theorem getV_VF_of_drw {y n : Nibble} (h : exec (.drw x y n) s = .next t) :
    t.getV 0xF = flagByte (s.drawBlit x y n).collision := by
  rw [next_eq_of_exec h (exec_drw s x y n)]
  exact (getV_setFlag _ 0xF _).trans (if_pos rfl)

/-- VF is kept where no register is written, and where the register written is another. -/
theorem getV_VF_kept (hvf : writesVF i = false) (h : exec i s = .next t) : t.getV 0xF = s.getV 0xF := by
  cases i
  case ldImm x kk => exact getV_VF_of_setV (exec_ldImm s x kk) hvf h
  case addImm x kk => exact getV_VF_of_setV (exec_addImm s x kk) hvf h
  case ldReg x y => exact getV_VF_of_setV (exec_ldReg s x y) hvf h
  case orReg x y => exact getV_VF_of_setV (exec_orReg s x y) hvf h
  case andReg x y => exact getV_VF_of_setV (exec_andReg s x y) hvf h
  case xorReg x y => exact getV_VF_of_setV (exec_xorReg s x y) hvf h
  case ldVxDt x => exact getV_VF_of_setV (exec_ldVxDt s x) hvf h
  case rnd x kk =>
    rw [eq_of_running h (exec_rnd s x kk)]
    exact (getV_setV s x 0xF _).trans (if_neg (beq_eq_false_iff_ne.mp hvf).symm)
  case ldVxK x => exact getV_VF_of_ldVxK hvf h
  case loadRegs x => exact getV_VF_of_loadRegs hvf h
  case addReg | subReg | shr | subn | shl | drw => exact absurd hvf (by simp [writesVF])
  all_goals exact exec_unchangedExcept h .v (by simp [mayWrite]) 0xF

/-- Every flag-setting instruction ends with a flag in VF. -/
theorem getV_VF_is_flag {y n : Nibble}
    (hi : i ∈ [Instr.addReg x y, .subReg x y, .shr x y, .subn x y, .shl x y, .drw x y n]) (h : exec i s = .next t) :
    ∃ f, t.getV 0xF = flagByte f := by
  simp only [List.mem_cons, List.not_mem_nil, or_false] at hi
  obtain rfl | rfl | rfl | rfl | rfl | rfl := hi
  · exact ⟨_, getV_VF_of_setResultFlag (exec_addReg s x y) h⟩
  · exact ⟨_, getV_VF_of_setResultFlag (exec_subReg s x y) h⟩
  · exact ⟨_, getV_VF_of_setResultFlag (exec_shr s x y) h⟩
  · exact ⟨_, getV_VF_of_setResultFlag (exec_subn s x y) h⟩
  · exact ⟨_, getV_VF_of_setResultFlag (exec_shl s x y) h⟩
  · exact ⟨_, getV_VF_of_drw h⟩

end

/-! ### The obligations on frames -/

/-- Settles O18: `exec_frame`, the frames of the state's operations put together instruction by instruction. -/
theorem instructionsWriteOnlyWhatTheSpecNames : Obligations.InstructionsWriteOnlyWhatTheSpecNames := by
  unfold Obligations.InstructionsWriteOnlyWhatTheSpecNames
  exact fun _ _ _ => exec_unchangedExcept

/-- Settles O13: every event answers a next state, and so does every number of them. -/
theorem everyRunIsSafe : Obligations.EveryRunIsSafe := by
  unfold Obligations.EveryRunIsSafe
  exact safe

/-- Settles O17: the parameters are in no instruction's frame, and a tick and a key write do not name them. -/
theorem parametersNeverChange : Obligations.ParametersNeverChange := by
  unfold Obligations.ParametersNeverChange
  exact fun _ _ => step_cfg

/-- Settles O19: SP is in the frame of CALL and RET alone. -/
theorem onlyCallAndRetMoveTheStackPointer : Obligations.OnlyCallAndRetMoveTheStackPointer := by
  unfold Obligations.OnlyCallAndRetMoveTheStackPointer
  refine ⟨fun s nnn => ⟨_, exec_call s nnn, succ_nibble_toNat s.sp⟩, fun s => ⟨_, exec_ret s, pred_nibble_toNat s.sp⟩,
    fun i s t hret hcall h => exec_unchangedExcept h .sp (sp_not_mem_mayWrite hret hcall), fun s t hnot h => ?_⟩
  obtain ⟨hstep, -⟩ | ⟨-, rfl⟩ | ⟨k, -, rfl⟩ := step_cases h
  · exact absurd ((gives_iff _ _ _).mpr (Prod.ext hstep rfl)) (hnot s.events.next.2)
  · rfl
  · rfl

/-- Settles O20: `getV_VF_kept` for the instructions that do not write VF, `getV_VF_is_flag` for the flag setters. -/
theorem onlyFlagSettersAndDestinationsWriteVF : Obligations.OnlyFlagSettersAndDestinationsWriteVF := by
  unfold Obligations.OnlyFlagSettersAndDestinationsWriteVF
  refine ⟨fun i s t => getV_VF_kept, fun i s t x y n hi h => ?_⟩
  obtain ⟨f, hf⟩ := getV_VF_is_flag hi h
  exact hf ▸ flagByte_eq_zero_or_one f

/-- `audio_on` is the level of ST, so where ST stays there is no edge (45_timers_keypad.md R182). -/
theorem audioSignal_of_st_eq {s t : State} (h : t.st = s.st) : audioSignal s t = none := by
  have hlevel : t.audioOn = s.audioOn := by simp only [State.audioOn, h]
  unfold audioSignal
  rw [hlevel]
  cases s.audioOn <;> rfl

/-- Settles O50: ST is in the frame of Fx18 alone. -/
theorem onlyFx18SignalsAudio : Obligations.OnlyFx18SignalsAudio := by
  unfold Obligations.OnlyFx18SignalsAudio
  exact fun i s t hi h => audioSignal_of_st_eq (exec_unchangedExcept h .st (st_not_mem_mayWrite hi))

end Sys2Proof.Machine

/-! SUPPORT. What an instruction can do to memory, to the stack slots, to PC, to the wait latch and to the outputs, each
said once; and from it the invariant of the machine, the font under IGNORE, the evenness of PC and the two outcomes of a
step. -/

namespace Sys2Proof.Machine

/-! ### Memory, slots, PC, latch and outputs after an instruction -/

section
variable (s : State)

theorem skipIf_mem (c : Bool) : (s.skipIf c).mem = s.mem := by rw [skipIf_eq]

theorem indexUpdate_mem (x : Nibble) : (s.indexUpdate x).mem = s.mem := by rw [indexUpdate_eq]

theorem loadBytes_mem (a n : Nat) : (s.loadBytes a n).mem = s.mem := by rw [loadBytes_eq]

end

/-- The values that instructions write to PC, each masked as it is stored (10_state.md R24). -/
inductive WritesPc : Instr → State → Word → Prop where
  /-- a skip that is taken (40_execution_cycle.md R92) -/
  | skip (i : Instr) (s : State) : WritesPc i s (s.pc + 2)
  /-- a key wait (45_timers_keypad.md R175) -/
  | rewind (x : Nibble) (s : State) : WritesPc (.ldVxK x) s (s.pc - 2)
  | jp (nnn : Addr) (s : State) : WritesPc (.jp nnn) s (addrWord nnn)
  | call (nnn : Addr) (s : State) : WritesPc (.call nnn) s (addrWord nnn)
  | jpV0 (nnn : Addr) (s : State) : WritesPc (.jpV0 nnn) s (addrWord nnn + s.getVWord 0)
  | ret (s : State) : WritesPc .ret s (s.slot s.sp)

section
variable {i : Instr} {s t : State}

/-- Memory after an instruction is memory after a transfer of some bytes, of none but for Fx33 and Fx55. -/
theorem exec_mem (h : exec i s = .next t) : ∃ a bs, t.mem = (s.storeBytes a bs).mem := by
  cases i
  case ldB x =>
    obtain rfl := eq_of_running h (exec_ldB s x)
    exact ⟨_, _, rfl⟩
  case storeRegs x =>
    obtain rfl := eq_of_running h (exec_storeRegs s x)
    exact ⟨_, _, indexUpdate_mem _ x⟩
  case loadRegs x =>
    obtain rfl := eq_of_running h (exec_loadRegs s x)
    exact ⟨0, [], (indexUpdate_mem _ x).trans (loadBytes_mem s _ _)⟩
  case ldVxK x =>
    obtain ⟨_, _, hexec, -⟩ | ⟨_, _, hexec, -⟩ := exec_ldVxK_cases s x
    · obtain rfl := eq_of_awaitingKey h hexec
      exact ⟨0, [], rfl⟩
    · obtain rfl := eq_of_running h hexec
      exact ⟨0, [], rfl⟩
  case seImm | sneImm | seReg | sneReg | skp | sknp =>
    injection h with h
    exact ⟨0, [], h ▸ skipIf_mem s _⟩
  all_goals
    injection h with h
    exact ⟨0, [], h ▸ rfl⟩

/-- An instruction keeps a byte whose write would be dropped. -/
theorem exec_memRead_of_dropped (h : exec i s = .next t) {a : Nat} (ha : s.writeDropped a = true) :
    t.memRead a = s.memRead a := by
  obtain ⟨b, bs, hmem⟩ := exec_mem h
  calc t.memRead a = (s.storeBytes b bs).memRead a :=
        memRead_congr hmem ((exec_cfg h).trans (storeBytes_cfg s b bs).symm) a
    _ = s.memRead a := memRead_storeBytes_outside s b a bs (.inr ha)

theorem exec_memCanonical (h : exec i s = .next t) (hwf : Memory.wf s.cfg.fontData s.mem = true) :
    Memory.wf t.cfg.fontData t.mem = true := by
  obtain ⟨a, bs, hmem⟩ := exec_mem h
  rw [hmem, exec_cfg h, ← storeBytes_cfg s a bs]
  exact storeBytes_wf a bs hwf

/-- A slot keeps its value, or CALL writes the provisional PC to it. -/
theorem exec_slot (h : exec i s = .next t) (k : Nibble) : t.slot k = s.slot k ∨ t.slot k = s.pc := by
  cases i
  case call nnn =>
    have hslot : t.slot k = if k = s.sp + 1 then s.pc else s.slot k := by
      rw [eq_of_running h (exec_call s nnn)]
      exact slot_push s k s.pc
    by_cases hk : k = s.sp + 1
    · exact .inr (hslot.trans (if_pos hk))
    · exact .inl (hslot.trans (if_neg hk))
  all_goals exact .inl (exec_unchangedExcept h .stack (by simp [mayWrite]) k)

theorem skipIf_pc_cases (s : State) (c : Bool) : (s.skipIf c).pc = s.pc ∨ (s.skipIf c).pc = (s.pc + 2) &&& 0xFFF := by
  cases c
  · exact .inl rfl
  · exact .inr rfl

/-- PC keeps its value or takes one of the values that the instruction writes, masked. -/
theorem exec_pc (h : exec i s = .next t) : t.pc = s.pc ∨ ∃ w, WritesPc i s w ∧ t.pc = w &&& 0xFFF := by
  cases i
  case ret => exact .inr ⟨_, .ret s, congrArg State.pc (eq_of_running h (exec_ret s))⟩
  case jp nnn => exact .inr ⟨_, .jp nnn s, congrArg State.pc (eq_of_running h (exec_jp s nnn))⟩
  case call nnn => exact .inr ⟨_, .call nnn s, congrArg State.pc (eq_of_running h (exec_call s nnn))⟩
  case jpV0 nnn => exact .inr ⟨_, .jpV0 nnn s, congrArg State.pc (eq_of_running h (exec_jpV0 s nnn))⟩
  case ldVxK x =>
    obtain ⟨_, _, hexec, -⟩ | ⟨_, _, hexec, -⟩ := exec_ldVxK_cases s x
    · exact .inr ⟨_, .rewind x s, congrArg State.pc (eq_of_awaitingKey h hexec)⟩
    · obtain rfl := eq_of_running h hexec
      exact .inl rfl
  case seImm | sneImm | seReg | sneReg | skp | sknp =>
    injection h with h
    subst h
    exact (skipIf_pc_cases s _).imp_right fun hpc => ⟨_, .skip _ s, hpc⟩
  all_goals exact .inl (exec_unchangedExcept h .pc (by simp [mayWrite]))

theorem exec_pcInMemory (h : exec i s = .next t) (hpc : s.pc.toNat < 4096) : t.pc.toNat < 4096 := by
  obtain hkept | ⟨w, -, hw⟩ := exec_pc h
  · exact hkept ▸ hpc
  · rw [hw, and_0xFFF_toNat]
    exact Nat.mod_lt _ (by decide)

/-- Under LEVEL no instruction touches the wait latch. -/
theorem exec_latch_of_level (h : exec i s = .next t) (hmode : s.cfg.keyWaitMode = .level) :
    t.kwActive = s.kwActive ∧ t.kwSnap = s.kwSnap := by
  cases i
  case ldVxK x =>
    obtain ⟨active, snap, hexec, hlevel, -⟩ | ⟨k, active, hexec, hlevel⟩ := exec_ldVxK_cases s x
    · obtain ⟨-, rfl, rfl⟩ := hlevel hmode
      exact eq_of_awaitingKey h hexec ▸ ⟨rfl, rfl⟩
    · obtain rfl := hlevel hmode
      exact eq_of_running h hexec ▸ ⟨rfl, rfl⟩
  all_goals
    exact ⟨exec_unchangedExcept h .kwActive (by simp [mayWrite]), exec_unchangedExcept h .kwSnap (by simp [mayWrite])⟩

/-- An instruction returns Running, with no diagnostic but the fallback's, or it is an Fx0A that waits. -/
theorem exec_out (h : exec i s = .next t) :
    (t.out.status = .running ∧ (t.out.diag = none ∨ ∃ w, i = .fallback w ∧ t.out.diag = some w)) ∨
    ∃ x, i = .ldVxK x ∧ t.out = ⟨.awaitingKey, false, none⟩ := by
  cases i
  case fallback w => exact next_eq_of_exec h (exec_fallback s w) ▸ .inl ⟨rfl, .inr ⟨w, rfl, rfl⟩⟩
  case ldVxK x =>
    obtain ⟨_, _, hexec, -⟩ | ⟨_, _, hexec, -⟩ := exec_ldVxK_cases s x
    · exact eq_of_awaitingKey h hexec ▸ .inr ⟨x, rfl, rfl⟩
    · exact eq_of_running h hexec ▸ .inl ⟨rfl, .inl rfl⟩
  all_goals
    injection h with h
    subst h
    exact .inl ⟨rfl, .inl rfl⟩

/-- An Fx0A that waits puts PC back where it was fetched from: it touches nothing but the supply, the wait latch and the
outputs (45_timers_keypad.md R175, R177). -/
theorem eq_of_step_awaits {x : Nibble} (hpc : s.pc.toNat < 4096)
    (h : exec (.ldVxK x) s.eventTaken.advance = .next t) (hstatus : t.out.status = .awaitingKey) :
    ∃ active snap, t = { s.eventTaken.latched active snap with out := ⟨.awaitingKey, false, none⟩ } ∧
      (s.cfg.keyWaitMode = .level → s.keys = 0 ∧ active = s.kwActive ∧ snap = s.kwSnap) ∧
      (s.cfg.keyWaitMode = .edge → s.kwActive = false ∨ s.keys &&& ~~~s.kwSnap = 0) := by
  obtain ⟨active, snap, hexec, hwait⟩ | ⟨_, _, hexec, -⟩ := exec_ldVxK_cases s.eventTaken.advance x
  · have hrewind : (((s.pc + 2) &&& 0xFFF) - 2) &&& 0xFFF = s.pc := rewind_advanced s.pc hpc
    refine ⟨active, snap, (eq_of_awaitingKey h hexec).trans ?_, hwait⟩
    simp only [State.latched, State.setPc, State.advance, State.eventTaken, hrewind]
  · rw [eq_of_running h hexec] at hstatus
    injection hstatus

end

/-! ### The invariant -/

theorem reset_inv (p : Params) : (State.resetWith p).Inv where
  memCanonical := rfl
  pcInMemory := (by decide : (0x200 : Word).toNat < 4096)
  slotsInMemory k := by
    have hslot : (State.resetWith p).slot k = 0 := by
      simp [State.slot, State.resetWith, Vector.get_eq_getElem]
    rw [hslot]
    decide
  latchClearInLevel _ := ⟨rfl, rfl⟩
  diagUnrecognized _ h := nomatch h
  waitAlone h := nomatch h
  waitAtFx0A h := nomatch h

section
variable {s t : State}

/-- A fetched instruction keeps the invariant. -/
theorem inv_of_instrStep (hinv : s.Inv) (h : exec (decodeWord s.fetchWord) s.eventTaken.advance = .next t) : t.Inv where
  memCanonical := exec_memCanonical h hinv.memCanonical
  pcInMemory := exec_pcInMemory h (setPc_pc_toNat s.eventTaken (s.pc + 2) ▸ Nat.mod_lt _ (by decide))
  slotsInMemory k := by
    obtain hk | hk := exec_slot h k
    · exact hk ▸ hinv.slotsInMemory k
    · rw [hk]
      exact setPc_pc_toNat s.eventTaken (s.pc + 2) ▸ Nat.mod_lt _ (by decide)
  latchClearInLevel hmode := by
    rw [exec_cfg h] at hmode
    obtain ⟨hactive, hsnap⟩ := exec_latch_of_level h hmode
    obtain ⟨hclear, hzero⟩ := hinv.latchClearInLevel hmode
    exact ⟨hactive.trans hclear, hsnap.trans hzero⟩
  diagUnrecognized w hw := by
    obtain ⟨-, hnone | ⟨w', hi, hdiag⟩⟩ | ⟨x, -, hout⟩ := exec_out h
    · rw [hw] at hnone
      exact nomatch hnone
    · obtain ⟨rfl, hunrec⟩ := eq_and_unrecognized_of_decodeWord_fallback hi
      rw [hw] at hdiag
      injection hdiag with hdiag
      exact hdiag ▸ hunrec
    · rw [hout] at hw
      exact nomatch hw
  waitAlone hstatus := by
    obtain ⟨hrunning, -⟩ | ⟨x, -, hout⟩ := exec_out h
    · rw [hstatus] at hrunning
      exact nomatch hrunning
    · exact hout ▸ ⟨rfl, rfl⟩
  waitAtFx0A hstatus := by
    obtain ⟨hrunning, -⟩ | ⟨x, hi, -⟩ := exec_out h
    · rw [hstatus] at hrunning
      exact nomatch hrunning
    · obtain ⟨active, snap, rfl, -⟩ := eq_of_step_awaits hinv.pcInMemory (hi ▸ h) hstatus
      exact ⟨x, hi⟩

/-- A tick and a key write touch nothing that the invariant speaks of. -/
theorem inv_tick (hinv : s.Inv) : s.eventTaken.tick.Inv := by
  obtain ⟨hmem, hpc, hslots, hlatch, hdiag, halone, hwait⟩ := hinv
  exact ⟨hmem, hpc, hslots, hlatch, hdiag, halone, hwait⟩

theorem inv_keysIn (hinv : s.Inv) (k : Word) : (s.eventTaken.keysIn k).Inv := by
  obtain ⟨hmem, hpc, hslots, hlatch, hdiag, halone, hwait⟩ := hinv
  exact ⟨hmem, hpc, hslots, hlatch, hdiag, halone, hwait⟩

theorem step_inv (hinv : s.Inv) (h : step s = .next t) : t.Inv := by
  obtain ⟨-, h⟩ | ⟨-, rfl⟩ | ⟨k, -, rfl⟩ := step_cases h
  · exact inv_of_instrStep hinv h
  · exact inv_tick hinv
  · exact inv_keysIn hinv k

/-! ### The font under IGNORE -/

/-- Memory at reset holds its reset contents, for it lists no byte. -/
theorem memRead_resetWith (p : Params) {a : Nat} (ha : a < 4096) :
    (State.resetWith p).memRead a = resetByte p.fontData a := by
  change resetByte p.fontData (maskAddr a) = _
  rw [maskAddr, Nat.mod_eq_of_lt ha]

theorem memRead_resetWith_font (p : Params) {a : Nat} (ha : a < 80) :
    (State.resetWith p).memRead a = p.fontData[a] := by
  rw [memRead_resetWith p (by omega), resetByte, dif_pos ha]

theorem step_fontIntact (hfont : s.FontIntact) (h : step s = .next t) : t.FontIntact := by
  obtain ⟨hmode, hbytes⟩ := hfont
  have hcfg : t.cfg = s.cfg := step_cfg h
  refine ⟨hcfg ▸ hmode, fun a ha => ?_⟩
  have hkept : t.memRead a = s.memRead a := by
    obtain ⟨-, h⟩ | ⟨-, rfl⟩ | ⟨k, -, rfl⟩ := step_cases h
    · exact exec_memRead_of_dropped h ((writeDropped_iff _ a).mpr ⟨hmode, by omega⟩)
    · rfl
    · rfl
  simp only [hkept, hbytes a ha, hcfg]

/-! ### Evenness -/

variable {i : Instr}

theorem even_and_0xFFF {w : Word} (hw : w.toNat % 2 = 0) : (w &&& 0xFFF).toNat % 2 = 0 := by
  rw [and_0xFFF_toNat]
  omega

theorem WritesPc.even {w : Word} (hw : WritesPc i s w) (heven : s.EvenAddresses) (htarget : EvenTarget i s) :
    w.toNat % 2 = 0 := by
  obtain ⟨hpc, hslots⟩ := heven
  have htwo : (2 : Word).toNat = 2 := rfl
  cases hw with
  | skip =>
    rw [BitVec.toNat_add]
    omega
  | rewind x =>
    rw [BitVec.toNat_sub]
    omega
  | jp nnn => exact addrWord_toNat nnn ▸ htarget
  | call nnn => exact addrWord_toNat nnn ▸ htarget
  | jpV0 nnn =>
    have hsum : (nnn.toNat + (s.getV 0).toNat) % 2 = 0 := htarget
    rw [BitVec.toNat_add, addrWord_toNat, getVWord_toNat]
    omega
  | ret => exact hslots s.sp

theorem exec_evenAddresses (heven : s.EvenAddresses) (htarget : EvenTarget i s) (h : exec i s = .next t) :
    t.EvenAddresses := by
  have ⟨hpceven, hslots⟩ := heven
  constructor
  · obtain hpc | ⟨w, hw, hpc⟩ := exec_pc h
    · exact hpc ▸ hpceven
    · exact hpc ▸ even_and_0xFFF (hw.even heven htarget)
  · intro k
    obtain hk | hk := exec_slot h k
    · exact hk ▸ hslots k
    · exact hk ▸ hpceven

/-! ### The two outcomes of a step -/

theorem instrStep_runs_or_awaits (hpc : s.pc.toNat < 4096)
    (h : exec (decodeWord s.fetchWord) s.eventTaken.advance = .next t) :
    t.out.status = .running ∨
      (t.out.status = .awaitingKey ∧ (∃ x, decodeWord s.fetchWord = .ldVxK x) ∧
        (s.cfg.keyWaitMode = .level → s.keys = 0 ∧ UnchangedExcept [.out, .events] s t) ∧
        (s.cfg.keyWaitMode = .edge →
          (s.kwActive = false ∨ s.keys &&& ~~~s.kwSnap = 0) ∧
          UnchangedExcept [.out, .events, .kwActive, .kwSnap] s t)) := by
  obtain ⟨hrunning, -⟩ | ⟨x, hi, hout⟩ := exec_out h
  · exact .inl hrunning
  · have hstatus : t.out.status = .awaitingKey := hout ▸ rfl
    obtain ⟨active, snap, rfl, hlevel, hedge⟩ := eq_of_step_awaits hpc (hi ▸ h) hstatus
    refine .inr ⟨hstatus, ⟨x, hi⟩, fun hmode => ?_, fun hmode => ⟨hedge hmode, ?_⟩⟩
    · obtain ⟨hkeys, rfl, rfl⟩ := hlevel hmode
      exact ⟨hkeys, ((eventTaken_unchangedExcept s).trans (withOut_unchangedExcept _ _)).mono (by decide)⟩
    · exact (((eventTaken_unchangedExcept s).trans (latched_unchangedExcept _ active snap)).trans
        (withOut_unchangedExcept _ _)).mono (by decide)

end

/-! ### The obligations -/

/-- Settles O14: no byte is listed, every slot is 0, and the outputs are quiet. -/
theorem resetMeetsTheInvariant : Obligations.ResetMeetsTheInvariant := by
  unfold Obligations.ResetMeetsTheInvariant
  exact reset_inv

/-- Settles O15: clause by clause from what an instruction can do to memory, slots, PC, latch and outputs. -/
theorem everyEventKeepsTheInvariant : Obligations.EveryEventKeepsTheInvariant := by
  unfold Obligations.EveryEventKeepsTheInvariant
  exact fun _ _ => step_inv

/-- Settles O16: the only writes of a running machine are transfers, which drop their writes to the font. -/
theorem fontIsImmutableUnderIgnore : Obligations.FontIsImmutableUnderIgnore := by
  unfold Obligations.FontIsImmutableUnderIgnore
  exact ⟨fun p hp => ⟨hp, fun a ha => memRead_resetWith_font p ha⟩, fun _ _ => step_fontIntact⟩

/-- Settles O22: every value written to PC is even, and a slot takes the even provisional PC. -/
theorem evenTargetsKeepPcEven : Obligations.EvenTargetsKeepPcEven := by
  unfold Obligations.EvenTargetsKeepPcEven
  exact fun _ _ _ => exec_evenAddresses

/-- Settles O9: only Fx0A can wait, and then it undoes the advance of PC. -/
theorem stepRunsOrAwaitsKey : Obligations.StepRunsOrAwaitsKey := by
  unfold Obligations.StepRunsOrAwaitsKey
  intro s q hgives hpc
  have hnext : s.events.next.1 = .step := congrArg Prod.fst ((gives_iff _ _ _).mp hgives)
  obtain ⟨t, ht, -⟩ := exec_frame (decodeWord s.fetchWord) s.eventTaken.advance
  exact ⟨t, (step_of_step hnext).trans ht, instrStep_runs_or_awaits hpc ht⟩

end Sys2Proof.Machine

/-! SUPPORT. The bits `I[15:12]` (10_state.md R23): every operation that reads I reads it modulo 4096, so each instruction
does the same on two states that differ in those bits alone. -/

namespace Sys2Proof.Machine

/-! ### Transfers and blits from addresses that agree modulo 4096 -/

section
variable (s : State) {a b : Nat}

theorem memRead_congr_mod (h : a % 4096 = b % 4096) : s.memRead a = s.memRead b := by
  rw [← memRead_mod s a, h, memRead_mod]

theorem memWrite_congr_mod (h : a % 4096 = b % 4096) (c : Byte) : s.memWrite a c = s.memWrite b c := by
  rw [← memWrite_mod s a, h, memWrite_mod]

theorem storeBytes_congr_mod (h : a % 4096 = b % 4096) (bs : List Byte) : s.storeBytes a bs = s.storeBytes b bs := by
  induction bs generalizing s a b with
  | nil => rfl
  | cons c bs ih =>
    simp only [State.storeBytes, memWrite_congr_mod s h]
    exact ih _ (by omega)

theorem loadBytes_congr_mod (h : a % 4096 = b % 4096) (n : Nat) : s.loadBytes a n = s.loadBytes b n := by
  induction n with
  | zero => rfl
  | succ n ih =>
    have hn : (a + n) % 4096 = (b + n) % 4096 := by omega
    simp only [State.loadBytes, ih, memRead_congr_mod _ hn]

end

/-! ### The operations commute with a write of I -/

section
variable (s : State) (j : Word)

theorem memWrite_setI (a : Nat) (b : Byte) : (s.setI j).memWrite a b = (s.memWrite a b).setI j := by
  have hdropped : (s.setI j).writeDropped a = s.writeDropped a := rfl
  unfold State.memWrite
  rw [hdropped]
  split <;> rfl

theorem storeBytes_setI (a : Nat) (bs : List Byte) : (s.setI j).storeBytes a bs = (s.storeBytes a bs).setI j := by
  induction bs generalizing s a with
  | nil => rfl
  | cons b bs ih => simp only [State.storeBytes, memWrite_setI, ih]

theorem loadBytes_setI (a n : Nat) : (s.setI j).loadBytes a n = (s.loadBytes a n).setI j := by
  induction n with
  | zero => rfl
  | succ n ih =>
    simp only [State.loadBytes, ih]
    rfl

theorem skipIf_setI (c : Bool) : (s.setI j).skipIf c = (s.skipIf c).setI j := by
  cases c <;> rfl

/-- The blit reads the sprite from I modulo 4096. -/
theorem blitRows_setI (h : j.toNat % 4096 = s.i.toNat % 4096) (cx cy n : Nat) :
    (s.setI j).blitRows cx cy n = s.blitRows cx cy n := by
  induction n with
  | zero => rfl
  | succ n ih =>
    have hn : (j.toNat + n) % 4096 = (s.i.toNat + n) % 4096 := by omega
    have hbyte : (s.setI j).memRead ((s.setI j).i.toNat + n) = s.memRead (s.i.toNat + n) := memRead_congr_mod s hn
    simp only [State.blitRows, ih, hbyte]

variable {s} {t : State}

theorem running_setI (h : running s = .next t) : running (s.setI j) = .next (t.setI j) ∧ t.i = s.i := by
  injection h with h
  subst h
  exact ⟨rfl, rfl⟩

theorem awaitingKey_setI (h : awaitingKey s = .next t) : awaitingKey (s.setI j) = .next (t.setI j) ∧ t.i = s.i := by
  injection h with h
  subst h
  exact ⟨rfl, rfl⟩

/-- A key wait reads and writes nothing of I. -/
theorem exec_ldVxK_setI {x : Nibble} (h : exec (.ldVxK x) s = .next t) :
    exec (.ldVxK x) (s.setI j) = .next (t.setI j) ∧ t.i = s.i := by
  cases hmode : s.cfg.keyWaitMode with
  | level =>
    rw [exec_ldVxK_of_level x hmode] at h
    rw [exec_ldVxK_of_level x (s := s.setI j) hmode]
    cases hlist : keyList s.keys with
    | nil =>
      rw [keyWaitLevel_of_nil x hlist] at h
      rw [keyWaitLevel_of_nil x (s := s.setI j) hlist]
      exact awaitingKey_setI j h
    | cons k rest =>
      rw [keyWaitLevel_of_cons x hlist] at h
      rw [keyWaitLevel_of_cons x (s := s.setI j) hlist]
      exact running_setI j h
  | edge =>
    rw [exec_ldVxK_of_edge x hmode] at h
    rw [exec_ldVxK_of_edge x (s := s.setI j) hmode]
    cases hactive : s.kwActive with
    | false =>
      rw [keyWaitEdge_of_inactive x hactive] at h
      rw [keyWaitEdge_of_inactive x (s := s.setI j) hactive]
      exact awaitingKey_setI j h
    | true =>
      cases hlist : keyList (s.keys &&& ~~~s.kwSnap) with
      | nil =>
        rw [keyWaitEdge_of_nil x hactive hlist] at h
        rw [keyWaitEdge_of_nil x (s := s.setI j) hactive hlist]
        exact awaitingKey_setI j h
      | cons k rest =>
        rw [keyWaitEdge_of_cons x hactive hlist] at h
        rw [keyWaitEdge_of_cons x (s := s.setI j) hactive hlist]
        exact running_setI j h

end

/-! ### Two states that differ in `I[15:12]` alone -/

theorem low_bits_eq_iff {a b : Word} : a &&& 0xFFF = b &&& 0xFFF ↔ a.toNat % 4096 = b.toNat % 4096 := by
  rw [← BitVec.toNat_inj, and_0xFFF_toNat, and_0xFFF_toNat]

theorem low_bits_add {a b : Word} (h : a &&& 0xFFF = b &&& 0xFFF) (c : Word) :
    (a + c) &&& 0xFFF = (b + c) &&& 0xFFF := by
  rw [low_bits_eq_iff] at h ⊢
  rw [BitVec.toNat_add, BitVec.toNat_add]
  omega

theorem sameButHighIndexBits_setI {s : State} {j : Word} (h : j &&& 0xFFF = s.i &&& 0xFFF) :
    SameButHighIndexBits s (s.setI j) := ⟨rfl, h⟩

theorem SameButHighIndexBits.withOut {s t : State} (h : SameButHighIndexBits s t) (o : Outputs) :
    SameButHighIndexBits { s with out := o } { t with out := o } := by
  obtain ⟨ht, hlow⟩ := h
  rw [ht]
  exact ⟨rfl, hlow⟩

/-- The index update adds the same to both values of I. -/
theorem SameButHighIndexBits.indexUpdate {s t : State} (h : SameButHighIndexBits s t) (x : Nibble) :
    SameButHighIndexBits (s.indexUpdate x) (t.indexUpdate x) := by
  obtain ⟨ht, hlow⟩ := h
  rw [ht, indexUpdate_eq, indexUpdate_eq]
  refine ⟨rfl, ?_⟩
  by_cases hmode : s.cfg.loadStoreI = .increment
  · simp only [hmode, if_true]
    exact low_bits_add (low_bits_add hlow _) _
  · simp only [hmode, if_false]
    exact hlow

section
variable {s s' : State} {j : Word}

theorem running_sameButHighIndexBits {i : Instr} {t u u' : State} (h : exec i s = .next s')
    (hexec : exec i s = running u) (hexec' : exec i t = running u') (hsame : SameButHighIndexBits u u') :
    ∃ t', exec i t = .next t' ∧ SameButHighIndexBits s' t' :=
  ⟨_, hexec', eq_of_running h hexec ▸ hsame.withOut Outputs.quiet⟩

/-- An instruction does the same on a state with other bits `I[15:12]`. -/
theorem exec_setI (hlow : j &&& 0xFFF = s.i &&& 0xFFF) {i : Instr} (h : exec i s = .next s') :
    ∃ t', exec i (s.setI j) = .next t' ∧ SameButHighIndexBits s' t' := by
  have hmod : j.toNat % 4096 = s.i.toNat % 4096 := low_bits_eq_iff.mp hlow
  cases i
  case ldI nnn => exact running_sameButHighIndexBits h (exec_ldI s nnn) (exec_ldI _ nnn) ⟨rfl, rfl⟩
  case ldF x => exact running_sameButHighIndexBits h (exec_ldF s x) (exec_ldF _ x) ⟨rfl, rfl⟩
  case addI x => exact running_sameButHighIndexBits h (exec_addI s x) (exec_addI _ x) ⟨rfl, low_bits_add hlow _⟩
  case ldB x =>
    refine running_sameButHighIndexBits h (exec_ldB s x) (exec_ldB _ x) ?_
    change SameButHighIndexBits _ ((s.setI j).storeBytes j.toNat _)
    rw [storeBytes_setI, storeBytes_congr_mod s hmod]
    exact sameButHighIndexBits_setI ((storeBytes_i s _ _).symm ▸ hlow)
  case storeRegs x =>
    refine running_sameButHighIndexBits h (exec_storeRegs s x) (exec_storeRegs _ x) (.indexUpdate ?_ x)
    change SameButHighIndexBits _ ((s.setI j).storeBytes j.toNat _)
    rw [storeBytes_setI, storeBytes_congr_mod s hmod]
    exact sameButHighIndexBits_setI ((storeBytes_i s _ _).symm ▸ hlow)
  case loadRegs x =>
    refine running_sameButHighIndexBits h (exec_loadRegs s x) (exec_loadRegs _ x) (.indexUpdate ?_ x)
    change SameButHighIndexBits _ ((s.setI j).loadBytes j.toNat _)
    rw [loadBytes_setI, loadBytes_congr_mod s hmod]
    exact sameButHighIndexBits_setI (by rw [loadBytes_eq]; exact hlow)
  case drw x y n =>
    have hblit : (s.setI j).drawBlit x y n = s.drawBlit x y n := blitRows_setI s j hmod _ _ _
    rw [exec_drw] at h ⊢
    rw [hblit]
    injection h with h
    subst h
    exact ⟨_, rfl, rfl, hlow⟩
  case ldVxK x =>
    obtain ⟨hexec, hi⟩ := exec_ldVxK_setI j h
    exact ⟨_, hexec, sameButHighIndexBits_setI (hi ▸ hlow)⟩
  case seImm | sneImm | seReg | sneReg | skp | sknp =>
    refine running_sameButHighIndexBits h rfl rfl ?_
    refine skipIf_setI s j _ ▸ sameButHighIndexBits_setI ?_
    rw [skipIf_eq]
    exact hlow
  all_goals
    injection h with h
    subst h
    exact ⟨_, rfl, rfl, hlow⟩

end

theorem step_sameButHighIndexBits {s t s' : State} (hsame : SameButHighIndexBits s t) (h : step s = .next s') :
    ∃ t', step t = .next t' ∧ SameButHighIndexBits s' t' := by
  obtain ⟨ht, hlow⟩ := hsame
  have hevents : t.events = s.events := by rw [ht]
  obtain ⟨hnext, h⟩ | ⟨hnext, rfl⟩ | ⟨k, hnext, rfl⟩ := step_cases h
  · have hstep : step t = exec (decodeWord t.fetchWord) t.eventTaken.advance := step_of_step (hevents ▸ hnext)
    rw [hstep, ht]
    exact exec_setI (s := s.eventTaken.advance) hlow h
  · refine ⟨_, step_of_tick (hevents ▸ hnext), ?_⟩
    rw [ht]
    exact ⟨rfl, hlow⟩
  · refine ⟨_, step_of_keysIn (hevents ▸ hnext), ?_⟩
    rw [ht]
    exact ⟨rfl, hlow⟩

/-- Settles O21: the next event and its free values are the same, and each instruction reads I modulo 4096. -/
theorem highIndexBitsAreUnobservable : Obligations.HighIndexBitsAreUnobservable := by
  unfold Obligations.HighIndexBitsAreUnobservable
  exact fun _ _ _ => step_sameButHighIndexBits

end Sys2Proof.Machine

/-! SUPPORT. Events and runs (40_execution_cycle.md R90, R96 to R98, 45_timers_keypad.md R181, R182): one event of each
kind, the countdown of the timers, what a supply gives after any number of events, and the program that has ended. -/

namespace Sys2Proof.Machine

/-! ### One event of each kind -/

section
variable {s : State} {q : EventSupply} {e : Event}

theorem next_of_gives (h : s.events.Gives e q) : s.events.next.1 = e ∧ s.eventTaken.events = q := by
  have hnext := (gives_iff _ _ _).mp h
  exact ⟨congrArg Prod.fst hnext, congrArg Prod.snd hnext⟩

theorem eventTaken_of_gives (h : s.events.Gives e q) : s.eventTaken = { s with events := q } := by
  rw [← (next_of_gives h).2]
  rfl

end

/-- The fetched word, spelled as the number that the two bytes at PC make. -/
theorem fetchWord_eq_ofNat (s : State) :
    s.fetchWord = BitVec.ofNat 16 (256 * (s.memRead s.pc.toNat).toNat + (s.memRead (s.pc.toNat + 1)).toNat) := by
  rw [← memReadWord_toNat, BitVec.ofNat_toNat, BitVec.setWidth_eq]
  rfl

/-- Settles O6: `step_of_step`, with the fetched word spelled as a number. -/
theorem stepRunsTheDecodedInstruction : Obligations.StepRunsTheDecodedInstruction := by
  unfold Obligations.StepRunsTheDecodedInstruction
  intro s q hgives
  rw [step_of_step (next_of_gives hgives).1, eventTaken_of_gives hgives, ← fetchWord_eq_ofNat]
  rfl

/-- Settles O8: the frames of the event taken and of the key write compose. -/
theorem keyWriteReplacesAllKeys : Obligations.KeyWriteReplacesAllKeys := by
  unfold Obligations.KeyWriteReplacesAllKeys
  intro s q k hgives
  obtain ⟨hnext, hq⟩ := next_of_gives hgives
  exact ⟨_, step_of_keysIn hnext,
    ((eventTaken_unchangedExcept s).trans (keysIn_unchangedExcept _ k)).mono (by decide), hq, rfl⟩

/-! ### The countdown of the timers -/

theorem audioOn_eq_true_iff (s : State) : s.audioOn = true ↔ s.st ≠ 0 := by simp [State.audioOn]

theorem audioSignal_eq_stop_iff (s t : State) : audioSignal s t = some .stop ↔ s.st ≠ 0 ∧ t.st = 0 := by
  rw [← audioOn_eq_true_iff s, ← not_ne_iff (a := t.st), ← audioOn_eq_true_iff t]
  unfold audioSignal
  cases s.audioOn <;> cases t.audioOn <;> simp

theorem audioSignal_eq_start_iff (s t : State) : audioSignal s t = some .start ↔ s.st = 0 ∧ t.st ≠ 0 := by
  rw [← audioOn_eq_true_iff t, ← not_ne_iff (a := s.st), ← audioOn_eq_true_iff s]
  unfold audioSignal
  cases s.audioOn <;> cases t.audioOn <;> simp

/-- A timer at `t` passes to 0 at a tick exactly from 1. -/
theorem countDown_reaches_zero_iff (t : Byte) : t ≠ 0 ∧ countDown t = 0 ↔ t.toNat = 1 := by
  rw [ne_eq, ← BitVec.toNat_inj, ← BitVec.toNat_inj, countDown_toNat]
  change ¬t.toNat = 0 ∧ t.toNat - 1 = 0 ↔ t.toNat = 1
  omega

/-- Settles O7: the frames of the event taken and of the tick compose, and `countDown` is subtraction held at 0. -/
theorem tickCountsDownBothTimers : Obligations.TickCountsDownBothTimers := by
  unfold Obligations.TickCountsDownBothTimers
  intro s q hgives
  obtain ⟨hnext, hq⟩ := next_of_gives hgives
  refine ⟨_, step_of_tick hnext, ((eventTaken_unchangedExcept s).trans (tick_unchangedExcept _)).mono (by decide), hq,
    countDown_toNat s.dt, countDown_toNat s.st, ?_⟩
  rw [audioSignal_eq_stop_iff, tick_st, eventTaken_st, countDown_reaches_zero_iff, ← BitVec.toNat_inj]
  rfl

theorem ticks_dt_toNat (s : State) (n : Nat) : (s.ticks n).dt.toNat = s.dt.toNat - n := by
  induction n with
  | zero => rfl
  | succ n ih =>
    simp only [State.ticks, tick_dt, countDown_toNat, ih]
    omega

theorem ticks_st_toNat (s : State) (n : Nat) : (s.ticks n).st.toNat = s.st.toNat - n := by
  induction n with
  | zero => rfl
  | succ n ih =>
    simp only [State.ticks, tick_st, countDown_toNat, ih]
    omega

theorem ticks_unchangedExcept (s : State) (n : Nat) : UnchangedExcept [.dt, .st] s (s.ticks n) := by
  induction n with
  | zero => exact fun p _ => Part.same_refl p s
  | succ n ih => exact (ih.trans (tick_unchangedExcept _)).mono (by decide)

/-- Settles O51: one tick more takes one more off, held at 0. -/
theorem ticksCountDownToZero : Obligations.TicksCountDownToZero := by
  unfold Obligations.TicksCountDownToZero
  exact fun s n => ⟨ticks_dt_toNat s n, ticks_st_toNat s n, ticks_unchangedExcept s n⟩

/-- The tick after `n` ticks signals stop exactly when it is the one that ST counts. -/
theorem audioSignal_tick_eq_stop_iff (s : State) (n : Nat) :
    audioSignal (s.ticks n) (s.ticks n).tick = some .stop ↔ s.st.toNat = n + 1 := by
  rw [audioSignal_eq_stop_iff, tick_st, countDown_reaches_zero_iff, ticks_st_toNat]
  omega

/-- Settles O52: by induction on the ticks, of which the one that ST counts signals stop. -/
theorem oneStopSignalPerCountdown : Obligations.OneStopSignalPerCountdown := by
  unfold Obligations.OneStopSignalPerCountdown
  intro s n
  induction n with
  | zero => exact (if_neg (by omega)).symm
  | succ n ih =>
    simp only [stopSignals, ih, audioSignal_tick_eq_stop_iff]
    by_cases hlast : s.st.toNat = n + 1
    · rw [if_neg (by omega), if_pos hlast, if_pos (by omega)]
    · have hlonger : 0 < s.st.toNat ∧ s.st.toNat ≤ n + 1 ↔ 0 < s.st.toNat ∧ s.st.toNat ≤ n := by omega
      rw [if_neg hlast, Nat.add_zero, if_congr hlonger rfl rfl]

/-! ### What a supply gives after any number of events -/

/-- The supply after its next `n` events. -/
def EventSupply.after (q : EventSupply) : Nat → EventSupply
  | 0 => q
  | n + 1 => EventSupply.after q.next.2 n

theorem after_add (q : EventSupply) (m n : Nat) : q.after (m + n) = (q.after m).after n := by
  induction m generalizing q with
  | zero => rw [Nat.zero_add]; rfl
  | succ m ih =>
    rw [Nat.add_right_comm]
    exact ih q.next.2

/-- The listed events come one by one, in order. -/
theorem after_listed (es rs : List Event) (n k : Nat) (h : k ≤ es.length) :
    EventSupply.after ⟨es, rs, n⟩ k = ⟨es.drop k, rs, n⟩ := by
  induction es generalizing k with
  | nil =>
    obtain rfl : k = 0 := Nat.le_zero.mp h
    rfl
  | cons e es ih =>
    cases k with
    | zero => rfl
    | succ k => exact ih k (Nat.le_of_succ_le_succ h)

theorem next_listed_drop {es : List Event} (rs : List Event) (n : Nat) {j : Nat} (h : j < es.length) :
    EventSupply.next ⟨es.drop j, rs, n⟩ = (es[j], ⟨es.drop (j + 1), rs, n⟩) := by
  rw [List.drop_eq_getElem_cons h, next_listed]

/-- With none listed, the recurring events are the next ones listed. -/
theorem next_nil_listed {rs : List Event} (hrs : rs ≠ []) (n : Nat) :
    EventSupply.next ⟨[], rs, n⟩ = EventSupply.next ⟨rs, rs, n⟩ := by
  obtain ⟨e, es, rfl⟩ := List.exists_cons_of_ne_nil hrs
  rfl

/-- Event `j` of a round, when none is listed. -/
theorem next_after_nil_listed {rs : List Event} (n : Nat) {j : Nat} (h : j < rs.length) :
    ((EventSupply.after ⟨[], rs, n⟩ j).next).1 = rs[j] := by
  have hrs : rs ≠ [] := List.ne_nil_of_length_pos (by omega)
  have hnext : (EventSupply.after ⟨[], rs, n⟩ j).next = (EventSupply.after ⟨rs, rs, n⟩ j).next := by
    cases j with
    | zero => exact next_nil_listed hrs n
    | succ j => simp only [EventSupply.after, next_nil_listed hrs]
  rw [hnext, after_listed _ _ _ _ h.le, next_listed_drop rs n h]

/-- A round of the recurring events ends where it began. -/
theorem after_round {rs : List Event} (hrs : rs ≠ []) (n : Nat) :
    EventSupply.after ⟨[], rs, n⟩ rs.length = ⟨[], rs, n⟩ := by
  have hround : EventSupply.after ⟨rs, rs, n⟩ rs.length = ⟨[], rs, n⟩ := by
    rw [after_listed _ _ _ _ le_rfl, List.drop_length]
  obtain ⟨e, es, rfl⟩ := List.exists_cons_of_ne_nil hrs
  rw [List.length_cons, EventSupply.after, next_nil_listed hrs]
  exact hround

section
variable {q : EventSupply}

theorem after_listed_length (q : EventSupply) : q.after q.listed.length = ⟨[], q.recurring, q.taken⟩ :=
  (after_listed q.listed q.recurring q.taken _ le_rfl).trans (by rw [List.drop_length])

/-- Once the listed events are over, the supply repeats itself round by round. -/
theorem after_add_round (hrs : q.recurring ≠ []) {n : Nat} (hn : q.listed.length ≤ n) :
    q.after (n + q.recurring.length) = q.after n := by
  obtain ⟨k, rfl⟩ := Nat.exists_eq_add_of_le hn
  rw [Nat.add_right_comm, after_add, after_add, after_listed_length, after_round hrs, after_add, after_listed_length]

/-- A recurring event comes again: where one round gave it before event `n`, the next round gives it after. -/
theorem exists_after_next_eq {e : Event} (he : e ∈ q.recurring) (n : Nat) :
    ∃ m, n ≤ m ∧ m < n + q.listed.length + q.recurring.length ∧ (q.after m).next.1 = e := by
  obtain ⟨j, hj, rfl⟩ := List.getElem_of_mem he
  have hfirst : (q.after (q.listed.length + j)).next.1 = q.recurring[j] := by
    rw [after_add, after_listed_length]
    exact next_after_nil_listed q.taken hj
  induction n with
  | zero => exact ⟨_, Nat.zero_le _, by omega, hfirst⟩
  | succ n ih =>
    obtain ⟨m, hnm, hm, hnext⟩ := ih
    by_cases hlater : n + 1 ≤ m
    · exact ⟨m, hlater, by omega, hnext⟩
    obtain rfl : m = n := by omega
    by_cases hlisted : q.listed.length ≤ m
    · refine ⟨m + q.recurring.length, by omega, by omega, ?_⟩
      rw [after_add_round (List.ne_nil_of_mem he) hlisted]
      exact hnext
    · exact ⟨_, by omega, by omega, hfirst⟩

end

/-! ### Runs -/

/-- A run of `n` events takes `n` events off the supply. -/
theorem reaches_events {s t : State} {n : Nat} (h : Reaches s n t) : t.events = s.events.after n := by
  induction n generalizing s with
  | zero => rw [(reaches_zero s t).mp h]; rfl
  | succ n ih =>
    obtain ⟨u, hu, ht⟩ := (reaches_succ s t n).mp h
    rw [ih ht, step_events hu]
    rfl

theorem Reaches.unique {s t u : State} {n : Nat} (ht : Reaches s n t) (hu : Reaches s n u) : t = u := by
  have h : Host.Outcome.next t = Host.Outcome.next u := ht.symm.trans hu
  injection h

/-- Settles O10: no event stops the machine, and each takes itself off the supply. -/
theorem everyInterleavingIsARun : Obligations.EveryInterleavingIsARun := by
  unfold Obligations.EveryInterleavingIsARun
  intro s es rs n
  have hrun : ∀ k ≤ es.length, ∃ t, Reaches { s with events := ⟨es, rs, n⟩ } k t ∧ t.events = ⟨es.drop k, rs, n⟩ := by
    intro k hk
    obtain ⟨t, ht⟩ := safe { s with events := ⟨es, rs, n⟩ } k
    exact ⟨t, ht, (reaches_events ht).trans (after_listed es rs n k hk)⟩
  refine ⟨hrun, fun j hj => ?_⟩
  obtain ⟨t, ht, hevents⟩ := hrun j hj.le
  refine ⟨t, ht, ?_⟩
  rw [step_eq_performed, State.eventTaken, hevents, next_listed_drop rs n hj]

/-- Settles O11: `exists_after_next_eq`, on a run that no event stops. -/
theorem recurringEventsKeepOccurring : Obligations.RecurringEventsKeepOccurring := by
  unfold Obligations.RecurringEventsKeepOccurring
  intro s e he n
  obtain ⟨m, hnm, hm, hnext⟩ := exists_after_next_eq he n
  obtain ⟨t, ht⟩ := safe s m
  refine ⟨m, hnm, hm, t, t.events.next.2, ht, (gives_iff _ _ _).mpr (Prod.ext ?_ rfl)⟩
  rw [reaches_events ht]
  exact hnext

/-! ### The program that has ended in a jump to itself (40_execution_cycle.md R98) -/

/-- What the program that has ended keeps: `t` is at the PC of `s`, with the same memory. -/
structure StaysAt (s t : State) : Prop where
  pc : t.pc = s.pc
  mem : t.mem = s.mem
  cfg : t.cfg = s.cfg

theorem StaysAt.refl (s : State) : StaysAt s s := ⟨rfl, rfl, rfl⟩

theorem StaysAt.fetchWord {s t : State} (h : StaysAt s t) : t.fetchWord = s.fetchWord := by
  simp only [State.fetchWord, State.memReadWord, memRead_congr h.mem h.cfg, h.pc]

/-- A 12-bit jump target is the PC it is cut from, where PC is in memory. -/
theorem addrWord_setWidth {pc : Word} (h : pc.toNat < 4096) : addrWord (pc.setWidth 12) &&& 0xFFF = pc := by
  apply BitVec.eq_of_toNat_eq
  rw [and_0xFFF_toNat, addrWord_toNat, BitVec.toNat_setWidth]
  omega

section
variable {s t u : State}

/-- The timers of `u` are at most those of `t` less `n`. -/
def TimersDown (n : Nat) (t u : State) : Prop := u.dt.toNat ≤ t.dt.toNat - n ∧ u.st.toNat ≤ t.st.toNat - n

/-- Every event keeps the program at its jump, and no event raises a timer. -/
theorem staysAt_step (hpc : s.pc.toNat < 4096) (hjump : decodeWord s.fetchWord = .jp (s.pc.setWidth 12))
    (hstay : StaysAt s t) (h : step t = .next u) : StaysAt s u ∧ TimersDown 0 t u := by
  obtain ⟨hpc', hmem, hcfg⟩ := hstay
  obtain ⟨-, h⟩ | ⟨-, rfl⟩ | ⟨k, -, rfl⟩ := step_cases h
  · rw [StaysAt.fetchWord ⟨hpc', hmem, hcfg⟩, hjump] at h
    obtain rfl := eq_of_running h (exec_jp _ _)
    exact ⟨⟨addrWord_setWidth hpc, hmem, hcfg⟩, le_rfl, le_rfl⟩
  · refine ⟨⟨hpc', hmem, hcfg⟩, ?_, ?_⟩
    · rw [tick_dt, countDown_toNat, eventTaken_dt]
      omega
    · rw [tick_st, countDown_toNat, eventTaken_st]
      omega
  · exact ⟨⟨hpc', hmem, hcfg⟩, le_rfl, le_rfl⟩

theorem staysAt_reaches (hpc : s.pc.toNat < 4096) (hjump : decodeWord s.fetchWord = .jp (s.pc.setWidth 12)) {n : Nat}
    (hstay : StaysAt s t) (h : Reaches t n u) : StaysAt s u ∧ TimersDown 0 t u := by
  induction n generalizing t with
  | zero =>
    obtain rfl := (reaches_zero t u).mp h
    exact ⟨hstay, le_rfl, le_rfl⟩
  | succ n ih =>
    obtain ⟨v, hv, hu⟩ := (reaches_succ t u n).mp h
    obtain ⟨hstay', hdt, hst⟩ := staysAt_step hpc hjump hstay hv
    obtain ⟨hstay'', hdt', hst'⟩ := ih hstay' hu
    exact ⟨hstay'', by omega, by omega⟩

/-- For every `k` there is a time from which on at least `k` ticks have come. -/
theorem fairTicks_timersDown (hpc : s.pc.toNat < 4096) (hjump : decodeWord s.fetchWord = .jp (s.pc.setWidth 12))
    (hfair : FairTicks s) (k : Nat) :
    ∃ n, ∀ m ≥ n, ∀ t, Reaches s m t → StaysAt s t ∧ TimersDown k s t := by
  induction k with
  | zero => exact ⟨0, fun m _ t ht => staysAt_reaches hpc hjump (.refl s) ht⟩
  | succ k ih =>
    obtain ⟨n, hn⟩ := ih
    obtain ⟨m, hm, t, q, ht, hgives⟩ := hfair n
    obtain ⟨hstay, hdt, hst⟩ := hn m hm t ht
    have htick : step t = .next t.eventTaken.tick := step_of_tick (next_of_gives hgives).1
    refine ⟨m + 1, fun m' hm' u hu => ?_⟩
    obtain ⟨d, rfl⟩ := Nat.exists_eq_add_of_le hm'
    rw [Nat.add_assoc, Nat.add_comm 1 d] at hu
    obtain ⟨t', ht', hu⟩ := (reaches_add s u m (d + 1)).mp hu
    obtain rfl := ht.unique ht'
    obtain ⟨v, hv, hu⟩ := (reaches_succ t u d).mp hu
    obtain ⟨hstay', -⟩ := staysAt_step hpc hjump hstay hv
    obtain ⟨hstay'', hdt', hst'⟩ := staysAt_reaches hpc hjump hstay' hu
    rw [htick] at hv
    injection hv with hv
    subst hv
    rw [tick_dt, countDown_toNat, eventTaken_dt] at hdt'
    rw [tick_st, countDown_toNat, eventTaken_st] at hst'
    exact ⟨hstay'', by omega, by omega⟩

end

/-- Settles O12: after 255 ticks no byte is left to count down. -/
theorem fairTicksExpireTheTimersOfAnEndedProgram : Obligations.FairTicksExpireTheTimersOfAnEndedProgram := by
  unfold Obligations.FairTicksExpireTheTimersOfAnEndedProgram
  intro s hpc hjump hfair
  obtain ⟨n, hn⟩ := fairTicks_timersDown hpc hjump hfair 255
  refine ⟨n, fun m hm => ?_⟩
  obtain ⟨t, ht⟩ := safe s m
  obtain ⟨hstay, hdt, hst⟩ := hn m hm t ht
  have hdt0 : t.dt.toNat = 0 := by omega
  have hst0 : t.st.toNat = 0 := by omega
  exact ⟨t, ht, hstay.pc, BitVec.eq_of_toNat_eq hdt0, BitVec.eq_of_toNat_eq hst0⟩

end Sys2Proof.Machine

/-! SUPPORT. Nested calls (41_control_flow.md R100, R102, R108): which stack slots a sequence of calls leaves alone, and
that as many returns bring PC and SP back. -/

namespace Sys2Proof.Machine

/-! ### Sequences of instructions -/

theorem execAll_cons {i : Instr} {s t : State} (h : exec i s = .next t) (is : List Instr) :
    execAll (i :: is) s = execAll is t := by
  simp only [execAll, h]

theorem execAll_append {is : List Instr} {s t : State} (h : execAll is s = .next t) (js : List Instr) :
    execAll (is ++ js) s = execAll js t := by
  induction is generalizing s with
  | nil =>
    injection h with h
    rw [h, List.nil_append]
  | cons i is ih =>
    obtain ⟨u, hu, -⟩ := exec_frame i s
    rw [execAll_cons hu] at h
    rw [List.cons_append, execAll_cons hu, ih h]

/-! ### How far above SP a slot is -/

/-- How many calls nested in the next one come before a call that writes slot `k`. -/
def slotDepth (sp k : Nibble) : Nat := (k - (sp + 1)).toNat

theorem slotDepth_next (sp : Nibble) : slotDepth sp (sp + 1) = 0 := by
  simp [slotDepth]

theorem slotDepth_current (sp : Nibble) : slotDepth sp sp = 15 := by
  unfold slotDepth
  revert sp
  decide

theorem slotDepth_succ {sp k : Nibble} (h : 0 < slotDepth sp k) : slotDepth (sp + 1) k = slotDepth sp k - 1 := by
  unfold slotDepth at h ⊢
  revert sp k
  decide

/-! ### One call and one return -/

/-- The state that CALL leaves. -/
def State.called (s : State) (nnn : Addr) : State := { (s.push s.pc).setPc (addrWord nnn) with out := Outputs.quiet }

/-- The state that RET leaves. -/
def State.returned (s : State) : State := { (s.setPc (s.slot s.sp)).pop with out := Outputs.quiet }

section
variable (s : State)

theorem exec_call_called (nnn : Addr) : exec (.call nnn) s = .next (s.called nnn) := rfl

theorem exec_ret_returned : exec .ret s = .next s.returned := rfl

theorem called_sp (nnn : Addr) : (s.called nnn).sp = s.sp + 1 := rfl

theorem called_pcInMemory (nnn : Addr) : (s.called nnn).pc.toNat < 4096 :=
  (setPc_addrWord_pc_toNat (s.push s.pc) nnn).trans_lt nnn.isLt

theorem slot_called_next (nnn : Addr) : (s.called nnn).slot (s.sp + 1) = s.pc :=
  (slot_push s (s.sp + 1) s.pc).trans (if_pos rfl)

theorem slot_called_of_deeper (nnn : Addr) {k : Nibble} (h : 0 < slotDepth s.sp k) :
    (s.called nnn).slot k = s.slot k := by
  refine (slot_push s k s.pc).trans (if_neg fun hk => ?_)
  rw [hk, slotDepth_next] at h
  exact Nat.lt_irrefl 0 h

theorem returned_sp : s.returned.sp = s.sp - 1 := rfl

theorem returned_slot (k : Nibble) : s.returned.slot k = s.slot k := rfl

theorem returned_pc : s.returned.pc = s.slot s.sp &&& 0xFFF := rfl

theorem and_0xFFF_of_lt {w : Word} (h : w.toNat < 4096) : w &&& 0xFFF = w :=
  BitVec.eq_of_toNat_eq ((and_0xFFF_toNat w).trans (Nat.mod_eq_of_lt h))

/-! ### Sequences of calls, and of calls and returns -/

/-- `n` nested calls write the next `n` slots and keep the deeper ones. -/
theorem execAll_calls (targets : List Addr) :
    ∃ t, execAll (targets.map Instr.call) s = .next t ∧ t.sp = s.sp + BitVec.ofNat 4 targets.length ∧
      ∀ k, targets.length ≤ slotDepth s.sp k → t.slot k = s.slot k := by
  induction targets generalizing s with
  | nil => exact ⟨s, rfl, (BitVec.add_zero s.sp).symm, fun _ _ => rfl⟩
  | cons c targets ih =>
    obtain ⟨t, ht, hsp, hslots⟩ := ih (s.called c)
    refine ⟨t, (execAll_cons (exec_call_called s c) _).trans ht, ?_, fun k hk => ?_⟩
    · rw [hsp, called_sp, BitVec.add_assoc, List.length_cons, Nat.add_comm, BitVec.ofNat_add]
      rfl
    · have hdeeper : 0 < slotDepth s.sp k := Nat.lt_of_lt_of_le (Nat.succ_pos _) hk
      have hk' : targets.length ≤ slotDepth (s.called c).sp k := by
        rw [called_sp, slotDepth_succ hdeeper]
        exact Nat.le_sub_one_of_lt hk
      rw [hslots k hk', slot_called_of_deeper s c hdeeper]

/-- Up to 16 nested calls and as many returns bring PC and SP back. The calls nested in the first, at most 15 of them, do
not reach the slot that it wrote, so the last return finds the PC there. -/
theorem execAll_calls_rets (targets : List Addr) (hpc : s.pc.toNat < 4096) (hlen : targets.length ≤ 16) :
    ∃ t, execAll (targets.map Instr.call ++ List.replicate targets.length Instr.ret) s = .next t ∧
      t.pc = s.pc ∧ t.sp = s.sp ∧ (∀ k, targets.length ≤ slotDepth s.sp k → t.slot k = s.slot k) ∧
      UnchangedExcept [.pc, .sp, .stack, .out] s t := by
  induction targets generalizing s with
  | nil => exact ⟨s, rfl, rfl, rfl, fun _ _ => rfl, fun p _ => Part.same_refl p s⟩
  | cons c targets ih =>
    rw [List.length_cons] at hlen
    obtain ⟨t, ht, -, hsp, hslots, hframe⟩ := ih (s.called c) (called_pcInMemory s c) (by omega)
    rw [called_sp] at hsp hslots
    have hpushed : t.slot t.sp = s.pc := by
      rw [hsp, hslots _ (by rw [slotDepth_current]; omega), slot_called_next]
    refine ⟨t.returned, ?_, ?_, ?_, fun k hk => ?_, ?_⟩
    · rw [List.map_cons, List.cons_append, execAll_cons (exec_call_called s c), List.length_cons,
        List.replicate_succ', ← List.append_assoc, execAll_append ht, execAll_cons (exec_ret_returned t)]
      rfl
    · rw [returned_pc, hpushed, and_0xFFF_of_lt hpc]
    · rw [returned_sp, hsp, BitVec.add_sub_cancel]
    · have hdeeper : 0 < slotDepth s.sp k := Nat.lt_of_lt_of_le (Nat.succ_pos _) hk
      have hk' : targets.length ≤ slotDepth (s.sp + 1) k := by
        rw [slotDepth_succ hdeeper]
        exact Nat.le_sub_one_of_lt hk
      rw [returned_slot, hslots k hk', slot_called_of_deeper s c hdeeper]
    · exact (((exec_unchangedExcept (exec_call_called s c)).trans hframe).trans
        (exec_unchangedExcept (exec_ret_returned t))).mono (by simp [mayWrite])

end

/-- Settles O27: `execAll_calls_rets`; 16 calls reach every slot, so the 17th writes the slot of the first again. -/
theorem sixteenNestedCallsReturn : Obligations.SixteenNestedCallsReturn := by
  unfold Obligations.SixteenNestedCallsReturn
  constructor
  · intro s targets hpc hlen
    obtain ⟨t, ht, hpc', hsp, -, hframe⟩ := execAll_calls_rets s targets hpc hlen
    exact ⟨t, ht, hpc', hsp, hframe⟩
  · intro s first last targets hlen
    obtain ⟨t, ht, hsp, hslots⟩ := execAll_calls (s.called first) targets
    rw [hlen] at hsp hslots
    have hsp' : t.sp + 1 = s.sp + 1 := by
      rw [hsp, called_sp]
      generalize s.sp = sp
      revert sp
      decide
    refine ⟨t, t.called last, (execAll_cons (exec_call_called s first) _).trans ht, ?_, exec_call_called t last, ?_, ?_⟩
    · rw [hslots _ (by rw [called_sp, slotDepth_current]), slot_called_next]
    · exact (called_sp t last).trans hsp'
    · exact hsp' ▸ slot_called_next t last

end Sys2Proof.Machine

/-! SUPPORT. The remaining instructions one by one: the flag setters and Cxkk (42_alu.md), Bnnn (41_control_flow.md), the
index and memory instructions (43_index_memory.md), Dxyn (44_display.md), and the keypad and the sound timer
(45_timers_keypad.md). -/

namespace Sys2Proof.Machine

/-! ### Flags -/

theorem flagByte_carryOf (a b : Byte) : flagByte (carryOf a b) = if a.toNat + b.toNat ≥ 256 then 1 else 0 := by
  simp only [flagByte, carryOf, decide_eq_true_eq, ge_iff_le]

theorem flagByte_notBorrowOf (a b : Byte) : flagByte (notBorrowOf a b) = if a.toNat ≥ b.toNat then 1 else 0 := by
  simp only [flagByte, notBorrowOf, decide_eq_true_eq, ge_iff_le]

theorem sub_toNat_mod (a b : Byte) : (a - b).toNat = (256 + a.toNat - b.toNat) % 256 := by
  rw [BitVec.toNat_sub]
  omega

theorem flagByte_lsbOf_toNat (a : Byte) : (flagByte (lsbOf a)).toNat = a.toNat % 2 := by
  revert a
  decide

theorem flagByte_msbOf_toNat (a : Byte) : (flagByte (msbOf a)).toNat = a.toNat / 128 := by
  revert a
  decide

theorem shiftLeft_one_toNat (a : Byte) : (a <<< 1).toNat = 2 * a.toNat % 256 := by
  rw [BitVec.toNat_shiftLeft, Nat.shiftLeft_eq]
  omega

theorem shiftRight_one_toNat (a : Byte) : (a >>> 1).toNat = a.toNat / 2 := by
  rw [BitVec.toNat_ushiftRight, Nat.shiftRight_eq_div_pow, Nat.pow_one]

section
variable {i : Instr} {s : State} {x : Nibble} {b : Byte} {f : Bool}

/-- An instruction that ends with a result in V[x] and a flag in VF, written last. -/
theorem completes_of_setResultFlag (hexec : exec i s = running (s.setResultFlag x b f)) :
    Completes i s [.v] Outputs.quiet fun t =>
      t.getV 0xF = flagByte f ∧ (x ≠ 0xF → t.getV x = b) ∧ ∀ r, r ≠ x → r ≠ 0xF → t.getV r = s.getV r := by
  refine completes_of_running hexec (setResultFlag_unchangedExcept s x b f) ⟨?_, fun hx => ?_, fun r hrx hrF => ?_⟩
  · exact (getV_setResultFlag s x 0xF b f).trans (if_pos rfl)
  · exact (getV_setResultFlag s x x b f).trans ((if_neg hx).trans (if_pos rfl))
  · exact (getV_setResultFlag s x r b f).trans ((if_neg hrF).trans (if_neg hrx))

end

/-- Settles O34: the flag of each is a comparison of numbers, and the result a sum or difference modulo 256. -/
theorem addAndSubtractSetVF : Obligations.AddAndSubtractSetVF := by
  unfold Obligations.AddAndSubtractSetVF
  intro s x y
  refine ⟨⟨decodeWord_addReg x y, (completes_of_setResultFlag (exec_addReg s x y)).imp ?add⟩,
    ⟨decodeWord_subReg x y, (completes_of_setResultFlag (exec_subReg s x y)).imp ?sub⟩,
    ⟨decodeWord_subn x y, (completes_of_setResultFlag (exec_subn s x y)).imp ?subn⟩⟩
  case add =>
    rintro t ⟨hflag, hresult, hkept⟩
    refine ⟨hflag.trans (flagByte_carryOf _ _), fun hx => ?_, hkept⟩
    rw [hresult hx, BitVec.toNat_add]
  case sub =>
    rintro t ⟨hflag, hresult, hkept⟩
    refine ⟨hflag.trans (flagByte_notBorrowOf _ _), fun hx => ?_, hkept⟩
    rw [hresult hx, sub_toNat_mod]
  case subn =>
    rintro t ⟨hflag, hresult, hkept⟩
    refine ⟨hflag.trans (flagByte_notBorrowOf _ _), fun hx => ?_, hkept⟩
    rw [hresult hx, sub_toNat_mod]

theorem shiftOperand_eq {s : State} {x y : Nibble} {a : Byte} (hvx : s.cfg.shiftSource = .vx → a = s.getV x)
    (hvy : s.cfg.shiftSource = .vy → a = s.getV y) : s.shiftOperand x y = a := by
  unfold State.shiftOperand
  split
  case h_1 h => exact (hvx h).symm
  case h_2 h => exact (hvy h).symm

/-- Settles O35: the operand is the one that the parameter names, and the flag the bit that the shift loses. -/
theorem shiftsMoveTheLostBitToVF : Obligations.ShiftsMoveTheLostBitToVF := by
  unfold Obligations.ShiftsMoveTheLostBitToVF
  intro s x y a hvx hvy
  have hoperand : s.shiftOperand x y = a := shiftOperand_eq hvx hvy
  refine ⟨⟨decodeWord_shr x y, (completes_of_setResultFlag (exec_shr s x y)).imp ?shr⟩,
    ⟨decodeWord_shl x y, (completes_of_setResultFlag (exec_shl s x y)).imp ?shl⟩⟩
  case shr =>
    rintro t ⟨hflag, hresult, hkept⟩
    rw [hoperand] at hflag hresult
    exact ⟨hflag ▸ flagByte_lsbOf_toNat a, fun hx => hresult hx ▸ shiftRight_one_toNat a, hkept⟩
  case shl =>
    rintro t ⟨hflag, hresult, hkept⟩
    rw [hoperand] at hflag hresult
    exact ⟨hflag ▸ flagByte_msbOf_toNat a, fun hx => hresult hx ▸ shiftLeft_one_toNat a, hkept⟩

/-- Settles O36: the register written takes the masked draw, and the draw is counted. -/
theorem randomByteIsMasked : Obligations.RandomByteIsMasked := by
  unfold Obligations.RandomByteIsMasked
  intro s x kk
  refine ⟨decodeWord_rnd x kk, completes_of_running (exec_rnd s x kk)
    ((setV_unchangedExcept s x _).trans (drawn_unchangedExcept _)) ⟨fun k => ?_, rfl, fun r hr => ?_⟩⟩
  · have hx : (s.setV x (s.rndByte &&& kk)).getV x = s.rndByte &&& kk := (getV_setV s x x _).trans (if_pos rfl)
    exact (congrArg (·.getLsbD k) hx).trans BitVec.getLsbD_and
  · exact (getV_setV s x r _).trans (if_neg hr)

/-! ### Bnnn -/

/-- Settles O24: the sum as a number stays below 2^16, so the mask of a PC write takes it modulo 4096. -/
theorem jumpV0SetsPcModulo4096 : Obligations.JumpV0SetsPcModulo4096 := by
  unfold Obligations.JumpV0SetsPcModulo4096
  intro s nnn
  refine ⟨decodeWord_jpV0 nnn, completes_of_running (exec_jpV0 s nnn) (setPc_unchangedExcept s _) ?_⟩
  refine (setPc_pc_toNat s _).trans ?_
  rw [BitVec.toNat_add, addrWord_toNat, getVWord_toNat]
  omega

/-! ### The index register -/

/-- Settles O38: I alone is written, with the sum modulo 65536. -/
theorem addToIndexSetsNoFlag : Obligations.AddToIndexSetsNoFlag := by
  unfold Obligations.AddToIndexSetsNoFlag
  intro s x
  refine ⟨decodeWord_addI x, completes_of_running (exec_addI s x) (setI_unchangedExcept s _) ?_⟩
  refine (BitVec.toNat_add s.i (s.getVWord x)).trans ?_
  rw [getVWord_toNat]

theorem glyphAddr_of_lowNibble {s : State} (h : s.cfg.fontDigit = .lowNibble) (x : Nibble) :
    (s.glyphAddr x).toNat = 5 * ((s.getV x).toNat % 16) := by
  have hnibble : (s.getVWord x &&& 0xF).toNat = (s.getV x).toNat % 16 := by
    rw [BitVec.toNat_and, getVWord_toNat]
    exact Nat.and_two_pow_sub_one_eq_mod _ 4
  have hfive : (5 : Word).toNat = 5 := rfl
  simp only [State.glyphAddr, h]
  rw [BitVec.toNat_mul, hnibble, hfive]
  omega

theorem glyphAddr_of_raw {s : State} (h : s.cfg.fontDigit = .raw) (x : Nibble) :
    (s.glyphAddr x).toNat = 5 * (s.getV x).toNat := by
  have hfive : (5 : Word).toNat = 5 := rfl
  simp only [State.glyphAddr, h]
  rw [BitVec.toNat_mul, getVWord_toNat, hfive]
  omega

/-- Settles O39: the glyph address under each setting, far below 2^16. -/
theorem fontGlyphAddress : Obligations.FontGlyphAddress := by
  unfold Obligations.FontGlyphAddress
  intro s x
  exact ⟨decodeWord_ldF x, completes_of_running (exec_ldF s x) (setI_unchangedExcept s _)
    ⟨fun h => glyphAddr_of_lowNibble h x, fun h => glyphAddr_of_raw h x⟩⟩

theorem indexUpdate_i_of_unchanged {s : State} (h : s.cfg.loadStoreI = .unchanged) (x : Nibble) :
    (s.indexUpdate x).i = s.i := by
  simp only [State.indexUpdate, h]

theorem indexUpdate_i_toNat_of_increment {s : State} (h : s.cfg.loadStoreI = .increment) (x : Nibble) :
    (s.indexUpdate x).i.toNat = (s.i.toNat + x.toNat + 1) % 65536 := by
  have hone : (1 : Word).toNat = 1 := rfl
  simp only [State.indexUpdate, h, setI_i]
  rw [BitVec.toNat_add, BitVec.toNat_add, BitVec.toNat_setWidth, hone]
  omega

theorem memRead_indexUpdate (s : State) (x : Nibble) (a : Nat) : (s.indexUpdate x).memRead a = s.memRead a := by
  rw [indexUpdate_eq]
  rfl

theorem getV_indexUpdate (s : State) (x r : Nibble) : (s.indexUpdate x).getV r = s.getV r := by
  rw [indexUpdate_eq]
  rfl

theorem memRead_withOut (s : State) (o : Outputs) (a : Nat) : ({ s with out := o } : State).memRead a = s.memRead a := rfl

/-! ### Transfers to memory -/

theorem writeDropped_eq_false_iff (s : State) (a : Nat) :
    s.writeDropped a = false ↔ ¬(s.cfg.fontWrite = .ignore ∧ a % 4096 ≤ 0x04F) := by
  rw [← writeDropped_iff, Bool.not_eq_true]

theorem memRead_storeBytes_of_dropped {s : State} {c : Nat} (h : s.cfg.fontWrite = .ignore ∧ c % 4096 ≤ 0x04F) (a : Nat)
    (bs : List Byte) : (s.storeBytes a bs).memRead c = s.memRead c :=
  memRead_storeBytes_outside s a c bs (.inr ((writeDropped_iff s c).mpr h))

/-- The byte at an address that a transfer reaches with its byte `j`, in the words of the address. -/
theorem memRead_storeBytes_at {s : State} {a c j : Nat} {bs : List Byte} (hj : j < bs.length) (hl : bs.length ≤ 4096)
    (hc : c % 4096 = (a + j) % 4096) (h : ¬(s.cfg.fontWrite = .ignore ∧ c % 4096 ≤ 0x04F)) :
    (s.storeBytes a bs).memRead c = bs[j] := by
  rw [hc, ← writeDropped_eq_false_iff] at h
  rw [memRead_congr_mod _ hc]
  exact memRead_storeBytes_inside s a j bs hj hl h

/-- Settles O40: the three digits are a transfer of three bytes, each reached at its own address. -/
theorem bcdDigitsAreStored : Obligations.BcdDigitsAreStored := by
  unfold Obligations.BcdDigitsAreStored
  intro s x
  refine ⟨decodeWord_ldB x, completes_of_running (exec_ldB s x) (storeBytes_unchangedExcept s _ _) fun a ha => ?_⟩
  refine (memRead_withOut _ _ a).trans ?_
  rw [State.indexBase]
  have hlen : (bcdDigits (s.getV x)).length = 3 := rfl
  split
  case isTrue hdrop => exact memRead_storeBytes_of_dropped ⟨hdrop.1, by omega⟩ _ _
  case isFalse hdrop =>
  have hkeep : ¬(s.cfg.fontWrite = .ignore ∧ a % 4096 ≤ 0x04F) := by rwa [Nat.mod_eq_of_lt ha]
  split
  case isTrue h0 => exact memRead_storeBytes_at (j := 0) (by omega) (by omega) (by omega) hkeep
  split
  case isTrue h1 => exact memRead_storeBytes_at (j := 1) (by omega) (by omega) (by omega) hkeep
  split
  case isTrue h2 => exact memRead_storeBytes_at (j := 2) (by omega) (by omega) (by omega) hkeep
  case isFalse h0 h1 h2 => exact memRead_storeBytes_outside _ _ _ _ (.inl fun j hj => by omega)

/-- A register of the list `V[0]` to `V[x]` is stored at its own address. -/
theorem memRead_storeRegs {s : State} {x k : Nibble} (hk : k ≤ x)
    (h : ¬(s.cfg.fontWrite = .ignore ∧ (s.i.toNat + k.toNat) % 4096 ≤ 0x04F)) :
    (s.storeBytes s.i.toNat (s.regList x)).memRead (s.i.toNat + k.toNat) = s.getV k := by
  have hlen := regList_length s x
  have hkx : k.toNat ≤ x.toNat := hk
  have hj : k.toNat < (s.regList x).length := by omega
  rw [memRead_storeBytes_at hj (by omega) rfl h, regList_getElem]

theorem memRead_storeRegs_outside {s : State} {x : Nibble} {a : Nat}
    (h : ∀ k : Nibble, k ≤ x → a % 4096 ≠ (s.i.toNat + k.toNat) % 4096) :
    (s.storeBytes s.i.toNat (s.regList x)).memRead a = s.memRead a := by
  refine memRead_storeBytes_outside s _ a _ (.inl fun j hj => ?_)
  rw [regList_length] at hj
  have hj16 : (BitVec.ofNat 4 j).toNat = j := by
    rw [BitVec.toNat_ofNat]
    omega
  have hjx : BitVec.ofNat 4 j ≤ x := by
    rw [BitVec.le_def, hj16]
    omega
  simpa only [hj16] using h _ hjx

/-- Settles O41: the transfer of the register list, then the index update. -/
theorem registersAreStored : Obligations.RegistersAreStored := by
  unfold Obligations.RegistersAreStored
  intro s x
  refine ⟨decodeWord_storeRegs x, completes_of_running (exec_storeRegs s x)
    ((storeBytes_unchangedExcept s _ _).trans (indexUpdate_unchangedExcept _ x))
    ⟨fun k hk h => ?_, fun a ha => ?_, fun hmode => ?_, fun hmode => ?_⟩⟩
  · exact (memRead_indexUpdate _ x _).trans (memRead_storeRegs hk h)
  · refine (memRead_indexUpdate _ x _).trans ?_
    obtain houtside | hdrop := ha
    · exact memRead_storeRegs_outside houtside
    · exact memRead_storeBytes_of_dropped hdrop _ _
  · exact (indexUpdate_i_of_unchanged ((storeBytes_cfg s _ _).symm ▸ hmode) x).trans (storeBytes_i s _ _)
  · refine (indexUpdate_i_toNat_of_increment ((storeBytes_cfg s _ _).symm ▸ hmode) x).trans ?_
    rw [storeBytes_i]

/-- Settles O44: the two bytes at PC are those of V[0] and V[1], stored at I and I + 1. -/
theorem fetchSeesTheStoredInstruction : Obligations.FetchSeesTheStoredInstruction := by
  unfold Obligations.FetchSeesTheStoredInstruction
  intro s x hmode hx hi
  have hkeep : ∀ a, ¬(s.cfg.fontWrite = .ignore ∧ a % 4096 ≤ 0x04F) := fun a h => by simp [hmode] at h
  have hfirst := memRead_storeRegs (s := s) (x := x) (k := 0) (Nat.zero_le _) (hkeep _)
  have hsecond := memRead_storeRegs (s := s) (x := x) (k := 1) hx (hkeep _)
  refine ⟨_, exec_storeRegs s x, ?_⟩
  change (((s.storeBytes s.i.toNat (s.regList x)).indexUpdate x).fetchWord).toNat = _
  have hpc : ((s.storeBytes s.i.toNat (s.regList x)).indexUpdate x).pc = s.pc := by
    rw [indexUpdate_eq, storeBytes_eq]
  have h0 : s.pc.toNat % 4096 = (s.i.toNat + (0 : Nibble).toNat) % 4096 := hi.symm
  have h1 : (s.pc.toNat + 1) % 4096 = (s.i.toNat + (1 : Nibble).toNat) % 4096 := by
    have hone : (1 : Nibble).toNat = 1 := rfl
    rw [hone]
    omega
  rw [State.fetchWord, hpc, memReadWord_toNat, memRead_indexUpdate, memRead_indexUpdate, memRead_congr_mod _ h0,
    memRead_congr_mod _ h1, hfirst, hsecond]

/-! ### Transfers from memory -/

theorem loadBytes_i (s : State) (a n : Nat) : (s.loadBytes a n).i = s.i := by rw [loadBytes_eq]

theorem loadBytes_cfg (s : State) (a n : Nat) : (s.loadBytes a n).cfg = s.cfg := by rw [loadBytes_eq]

/-- Settles O42: the transfer to the registers up to `x`, then the index update. -/
theorem registersAreLoaded : Obligations.RegistersAreLoaded := by
  unfold Obligations.RegistersAreLoaded
  intro s x
  refine ⟨decodeWord_loadRegs x, completes_of_running (exec_loadRegs s x)
    ((loadBytes_unchangedExcept s _ _).trans (indexUpdate_unchangedExcept _ x))
    ⟨fun k => ?_, fun hmode => ?_, fun hmode => ?_⟩⟩
  · refine (getV_indexUpdate _ x k).trans ((getV_loadBytes s s.indexBase _ (by omega) k).trans ?_)
    have hk : k.toNat < x.toNat + 1 ↔ k ≤ x := Nat.lt_succ_iff
    simp only [hk, memRead_mod]
    rfl
  · exact (indexUpdate_i_of_unchanged ((loadBytes_cfg s _ _).symm ▸ hmode) x).trans (loadBytes_i s _ _)
  · refine (indexUpdate_i_toNat_of_increment ((loadBytes_cfg s _ _).symm ▸ hmode) x).trans ?_
    rw [loadBytes_i]

end Sys2Proof.Machine

/-! SUPPORT. Dxyn (44_display.md R162, R164), the keypad and the sound timer (45_timers_keypad.md R172 to R177), the reset
state (10_state.md R38) and the ROM loader (70_reset_and_hazards.md R224, R225). -/

namespace Sys2Proof.Machine

/-! ### The draw -/

/-- A 1 bit of the sprite of `Dxyn` falls on the pixel. -/
def DrawCovers (s : State) (x y n : Nibble) (col : Fin 64) (row : Fin 32) : Prop :=
  SpriteCovers s (s.getV x).toNat (s.getV y).toNat n.toNat col row

section
variable (s : State) (x y n : Nibble)

theorem drawBlit_pixel_of_covers {col : Fin 64} {row : Fin 32} (h : DrawCovers s x y n col row) :
    pixelOf (s.drawBlit x y n).fb col row = !s.pixel col row := by
  obtain ⟨hflip, -, -⟩ := blitRows_spec s (s.getV x).toNat (s.getV y).toNat n.toNat (by omega)
  exact hflip col row h

theorem drawBlit_pixel_of_not_covers {col : Fin 64} {row : Fin 32} (h : ¬DrawCovers s x y n col row) :
    pixelOf (s.drawBlit x y n).fb col row = s.pixel col row := by
  obtain ⟨-, hkeep, -⟩ := blitRows_spec s (s.getV x).toNat (s.getV y).toNat n.toNat (by omega)
  exact hkeep col row h

theorem drawBlit_collision_iff :
    (s.drawBlit x y n).collision = true ↔ ∃ col row, DrawCovers s x y n col row ∧ s.pixel col row = true := by
  obtain ⟨-, -, hcollision⟩ := blitRows_spec s (s.getV x).toNat (s.getV y).toNat n.toNat (by omega)
  exact hcollision

/-- The state that Dxyn leaves. -/
def State.drew : State :=
  { ({ s with fb := (s.drawBlit x y n).fb }.setFlag (s.drawBlit x y n).collision) with out := ⟨.running, true, none⟩ }

theorem exec_drw_drew : exec (.drw x y n) s = .next (s.drew x y n) := rfl

theorem drew_pixel_of_covers {col : Fin 64} {row : Fin 32} (h : DrawCovers s x y n col row) :
    (s.drew x y n).pixel col row = !s.pixel col row := drawBlit_pixel_of_covers s x y n h

theorem drew_pixel_of_not_covers {col : Fin 64} {row : Fin 32} (h : ¬DrawCovers s x y n col row) :
    (s.drew x y n).pixel col row = s.pixel col row := drawBlit_pixel_of_not_covers s x y n h

theorem drew_getV_VF : (s.drew x y n).getV 0xF = flagByte (s.drawBlit x y n).collision :=
  getV_VF_of_drw (exec_drw_drew s x y n)

theorem drew_getV_of_ne {r : Nibble} (hr : r ≠ 0xF) : (s.drew x y n).getV r = s.getV r :=
  (getV_setFlag { s with fb := (s.drawBlit x y n).fb } r (s.drawBlit x y n).collision).trans (if_neg hr)

theorem flagByte_eq_one_iff (f : Bool) : flagByte f = 1 ↔ f = true := by cases f <;> decide

theorem flagByte_eq_zero_iff (f : Bool) : flagByte f = 0 ↔ f = false := by cases f <;> decide

theorem drew_getV_VF_eq_one_iff :
    (s.drew x y n).getV 0xF = 1 ↔ ∃ col row, DrawCovers s x y n col row ∧ s.pixel col row = true := by
  rw [drew_getV_VF, flagByte_eq_one_iff, drawBlit_collision_iff]

theorem drew_getV_VF_eq_zero_iff :
    (s.drew x y n).getV 0xF = 0 ↔ ∀ col row, DrawCovers s x y n col row → s.pixel col row = false := by
  rw [drew_getV_VF, flagByte_eq_zero_iff, ← Bool.not_eq_true, drawBlit_collision_iff]
  simp only [not_exists, not_and, Bool.not_eq_true]

/-- The draw moves neither the sprite nor, with the coordinates in other registers than VF, where it falls. -/
theorem drew_covers_iff (hx : x ≠ 0xF) (hy : y ≠ 0xF) (col : Fin 64) (row : Fin 32) :
    DrawCovers (s.drew x y n) x y n col row ↔ DrawCovers s x y n col row := by
  unfold DrawCovers
  rw [drew_getV_of_ne s x y n hx, drew_getV_of_ne s x y n hy]
  rfl

/-- Drawn twice, a pixel is inverted twice or not at all. -/
theorem drew_drew_pixel (hx : x ≠ 0xF) (hy : y ≠ 0xF) (col : Fin 64) (row : Fin 32) :
    ((s.drew x y n).drew x y n).pixel col row = s.pixel col row := by
  by_cases h : DrawCovers s x y n col row
  · rw [drew_pixel_of_covers _ _ _ _ ((drew_covers_iff s x y n hx hy col row).mpr h), drew_pixel_of_covers s x y n h,
      Bool.not_not]
  · rw [drew_pixel_of_not_covers _ _ _ _ (mt (drew_covers_iff s x y n hx hy col row).mp h),
      drew_pixel_of_not_covers s x y n h]

end

/-- Settles O46: `blitRows_spec`, with the collision flag in VF. -/
theorem drawXorsTheSpriteAndReportsCollision : Obligations.DrawXorsTheSpriteAndReportsCollision := by
  unfold Obligations.DrawXorsTheSpriteAndReportsCollision
  intro s x y n
  refine ⟨decodeWord_drw x y n, s.drew x y n, exec_drw_drew s x y n,
    (exec_unchangedExcept (exec_drw_drew s x y n)).mono (by simp [mayWrite]), rfl,
    fun _ _ => drew_pixel_of_covers s x y n, fun _ _ => drew_pixel_of_not_covers s x y n,
    (drew_getV_VF_eq_one_iff s x y n).mpr, (drew_getV_VF_eq_zero_iff s x y n).mpr, fun _ => drew_getV_of_ne s x y n⟩

/-- Settles O47: the second draw covers the same pixels and finds each of them inverted. -/
theorem drawingTwiceRestoresTheScreen : Obligations.DrawingTwiceRestoresTheScreen := by
  unfold Obligations.DrawingTwiceRestoresTheScreen
  intro s x y n hx hy
  have hinverted : ∀ col row (b : Bool), DrawCovers s x y n col row →
      ((s.drew x y n).pixel col row = b ↔ s.pixel col row = !b) := fun col row b h => by
    rw [drew_pixel_of_covers s x y n h, Bool.not_eq_eq_eq_not]
  refine ⟨s.drew x y n, (s.drew x y n).drew x y n, exec_drw_drew s x y n, exec_drw_drew _ x y n,
    drew_drew_pixel s x y n hx hy, ?_, ?_⟩
  · rw [drew_getV_VF_eq_one_iff]
    refine exists_congr fun col => exists_congr fun row => ?_
    rw [drew_covers_iff s x y n hx hy]
    exact and_congr_right (hinverted col row true)
  · rw [drew_getV_VF_eq_zero_iff]
    refine forall_congr' fun col => forall_congr' fun row => ?_
    rw [drew_covers_iff s x y n hx hy]
    exact imp_congr_right (hinverted col row false)

/-! ### The keypad and the sound timer -/

theorem key_of_lowNibble {s : State} (h : s.cfg.keyIndex = .lowNibble) (v : Byte) :
    s.key v = s.keys.getLsbD (v.toNat % 16) := by
  have hnibble : (v &&& 0xF).toNat = v.toNat % 16 := by
    rw [BitVec.toNat_and]
    exact Nat.and_two_pow_sub_one_eq_mod _ 4
  simp only [State.key, h, hnibble]

theorem key_of_outOfRangeReleased {s : State} (h : s.cfg.keyIndex = .outOfRangeReleased) (v : Byte) :
    s.key v = (decide (v.toNat < 16) && s.keys.getLsbD v.toNat) := by
  simp only [State.key, h, Nat.lt_succ_iff]

/-- Settles O30: both are skips, on `key` and on its negation, and `key` is the bit that each setting names. -/
theorem skipOnKey : Obligations.SkipOnKey := by
  unfold Obligations.SkipOnKey
  intro s x
  refine ⟨s.key (s.getV x), fun h => key_of_lowNibble h _, fun h hlt => ?_, fun h hge => ?_,
    ⟨decodeWord_skp x, completes_of_skipIf (exec_skp s x) Iff.rfl⟩,
    ⟨decodeWord_sknp x, completes_of_skipIf (exec_sknp s x) (iff_of_eq (Bool.not_eq_true' _))⟩⟩
  · rw [key_of_outOfRangeReleased h, decide_eq_true hlt, Bool.true_and]
  · rw [key_of_outOfRangeReleased h, decide_eq_false (Nat.not_lt.mpr hge), Bool.false_and]

/-- Settles O49: ST takes V[x], and an edge of `audio_on` is one of ST. -/
theorem soundTimerStartsAndStopsAudio : Obligations.SoundTimerStartsAndStopsAudio := by
  unfold Obligations.SoundTimerStartsAndStopsAudio
  intro s x
  exact ⟨decodeWord_ldStVx x, completes_of_running (exec_ldStVx s x) (withSt_unchangedExcept s _)
    ⟨rfl, audioSignal_eq_start_iff s _, audioSignal_eq_stop_iff s _⟩⟩

section
variable {s u : State} {i : Instr} {x k : Nibble}

/-- The wait's form of `completes_of_running`: PC is rewound by 2 modulo 4096 on top of the changes of `u`. -/
theorem completes_of_awaitingKey {ps : List Part} {post : State → Prop} (hexec : exec i s = awaitingKey u)
    (hframe : UnchangedExcept ps s u)
    (hpost : post { u.setPc (u.pc - 2) with out := ⟨.awaitingKey, false, none⟩ }) :
    Completes i s (.pc :: ps) ⟨.awaitingKey, false, none⟩ post :=
  ⟨_, hexec.trans (awaitingKey_eq u),
    ((hframe.trans (setPc_unchangedExcept u _)).trans (withOut_unchangedExcept _ _)).mono (by simp), rfl, hpost⟩

theorem rewound_pc_toNat (s : State) : (s.setPc (s.pc - 2)).pc.toNat = (s.pc.toNat + 4094) % 4096 := by
  have htwo : (2 : Word).toNat = 2 := rfl
  rw [setPc_pc_toNat, BitVec.toNat_sub, htwo]
  omega

theorem storeKey_getV_toNat (s : State) (x k : Nibble) : ((storeKey x k s).getV x).toNat = k.toNat := by
  have hx : (storeKey x k s).getV x = k.setWidth 8 := (getV_setV s x x _).trans (if_pos rfl)
  rw [hx, BitVec.toNat_setWidth]
  omega

end

/-- Settles O53: with no key the wait, with a key the store of one that the key list holds. -/
theorem keyWaitUnderLevel : Obligations.KeyWaitUnderLevel := by
  unfold Obligations.KeyWaitUnderLevel
  intro s x hmode
  refine ⟨decodeWord_ldVxK x, fun hkeys => ?_, fun hkeys => ?_⟩
  · exact completes_of_awaitingKey ((exec_ldVxK_of_level x hmode).trans (keyWaitLevel_of_no_key x hkeys))
      (fun p _ => Part.same_refl p s) (rewound_pc_toNat s)
  · obtain ⟨k, hk, hstore⟩ := keyWaitLevel_of_key x hkeys
    exact completes_of_running ((exec_ldVxK_of_level x hmode).trans hstore) (storeKey_unchangedExcept s x k)
      ⟨⟨k, hk, storeKey_getV_toNat s x k⟩, rfl, fun _ => storeKey_getV_of_ne s x k⟩

theorem getLsbD_new_keys {keys snap : Word} {k : Nibble} (h : (keys &&& ~~~snap).getLsbD k.toNat = true) :
    keys.getLsbD k.toNat = true ∧ snap.getLsbD k.toNat = false := by
  rw [BitVec.getLsbD_and, BitVec.getLsbD_not] at h
  simp only [Bool.and_eq_true, Bool.not_eq_true'] at h
  exact ⟨h.1, h.2.2⟩

/-- Settles O54: the first attempt and one with no new key latch KEYS and wait; one with a new key stores it. -/
theorem keyWaitUnderEdge : Obligations.KeyWaitUnderEdge := by
  unfold Obligations.KeyWaitUnderEdge
  intro s x hmode
  refine ⟨fun hactive => ?_, fun hactive hnew => ?_, fun hactive hnew => ?_⟩
  · exact completes_of_awaitingKey ((exec_ldVxK_of_edge x hmode).trans (keyWaitEdge_of_inactive x hactive))
      (latched_unchangedExcept s true s.keys) ⟨rewound_pc_toNat s, rfl, rfl⟩
  · have hexec : exec (.ldVxK x) s = awaitingKey (s.latched s.kwActive s.keys) :=
      hactive ▸ (exec_ldVxK_of_edge x hmode).trans (keyWaitEdge_of_no_new_key x hactive hnew)
    exact completes_of_awaitingKey hexec (latched_snap_unchangedExcept s s.keys) ⟨rewound_pc_toNat s, rfl⟩
  · obtain ⟨k, hk, hstore⟩ := keyWaitEdge_of_new_key x hactive hnew
    obtain ⟨hpressed, hfresh⟩ := getLsbD_new_keys hk
    exact completes_of_running ((exec_ldVxK_of_edge x hmode).trans hstore)
      (((storeKey_unchangedExcept s x k).trans (latched_active_unchangedExcept _ false)).mono (by decide))
      ⟨⟨k, hpressed, hfresh, storeKey_getV_toNat s x k⟩, rfl, rfl, fun _ => storeKey_getV_of_ne s x k⟩

/-! ### Reset and the ROM loader -/

theorem memRead_resetWith_rest (p : Params) {a : Nat} (h80 : 80 ≤ a) (ha : a < 4096) :
    (State.resetWith p).memRead a = 0 := by
  rw [memRead_resetWith p ha, resetByte, dif_neg (Nat.not_lt.mpr h80)]

/-- Settles O56: the registers, slots and pixels are replicated zeros, and memory lists no byte. -/
theorem resetIsAllZeroWithFontAndPc : Obligations.ResetIsAllZeroWithFontAndPc := by
  unfold Obligations.ResetIsAllZeroWithFontAndPc
  rintro p s rfl
  have hv : ∀ x, (State.resetWith p).getV x = 0 := fun x => by
    simp [State.getV, State.resetWith, Vector.get_eq_getElem]
  have hslot : ∀ k, (State.resetWith p).slot k = 0 := fun k => by
    simp [State.slot, State.resetWith, Vector.get_eq_getElem]
  have hpixel : ∀ col row, (State.resetWith p).pixel col row = false := pixel_clearScreen (State.resetWith p)
  exact ⟨hv, rfl, rfl, rfl, hslot, rfl, rfl, hpixel, rfl, rfl, rfl, fun a ha => memRead_resetWith_font p ha,
    fun a => memRead_resetWith_rest p, rfl, rfl⟩

theorem loadRom_unchangedExcept (s : State) (a : Nat) (bs : List Byte) : UnchangedExcept [.mem] s (s.loadRom a bs) := by
  rw [loadRom_eq]
  exact withMem_unchangedExcept s _

theorem launch_of_fits (p : Params) {rom : List Byte} (h : rom.length ≤ 3584) :
    launch p rom = some ((State.resetWith p).loadRom 0x200 rom) := by
  have hfits : rom.length ≤ romCapacity := h
  simp only [launch, admitRom, if_pos hfits, Option.map_some]

theorem launch_of_reject {p : Params} {rom : List Byte} (h : 3584 < rom.length) (hmode : p.romOversize = .reject) :
    launch p rom = none := by
  have hlong : ¬rom.length ≤ romCapacity := Nat.not_le.mpr h
  simp only [launch, admitRom, if_neg hlong, hmode, Option.map_none]

theorem launch_of_truncate {p : Params} {rom : List Byte} (h : 3584 < rom.length) (hmode : p.romOversize = .truncate) :
    launch p rom = some ((State.resetWith p).loadRom 0x200 (rom.take 3584)) := by
  have hlong : ¬rom.length ≤ romCapacity := Nat.not_le.mpr h
  simp only [launch, admitRom, if_neg hlong, hmode, Option.map_some]
  rfl

/-- Settles O57: the loader reaches the addresses from 0x200 to 0x200 + the length, none of which wraps. -/
theorem launchPlacesTheRomAt0x200 : Obligations.LaunchPlacesTheRomAt0x200 := by
  unfold Obligations.LaunchPlacesTheRomAt0x200
  intro p rom hlen
  refine ⟨_, launch_of_fits p hlen, loadRom_unchangedExcept _ _ rom, fun j hj => ?_, fun a ha houtside => ?_⟩
  · exact memRead_loadRom_inside _ 0x200 j rom hj (by omega)
  · exact memRead_loadRom_outside _ 0x200 a rom fun j hj => by omega

/-- Settles O58: one outcome for each setting. -/
theorem oversizeRomIsRejectedOrTruncated : Obligations.OversizeRomIsRejectedOrTruncated := by
  unfold Obligations.OversizeRomIsRejectedOrTruncated
  intro p rom hlen
  refine ⟨launch_of_reject hlen, fun hmode => ?_⟩
  rw [launch_of_truncate hlen hmode]
  exact ⟨(launch_of_fits p (List.length_take_le 3584 rom)).symm, rfl⟩

end Sys2Proof.Machine
